-- ==== Sys2Proof/Word.lean ====
section
/-! DEFINITION. The words of FILTCORE: a 32-bit F32 pattern and the 128-bit command and response words
(spec 00_scope.md R10, R11; 30_encoding.md R70, R76). -/

namespace Sys2Proof

/-- A 32-bit pattern read as IEEE 754 binary32 (R11). Every register, operand and data result is one. -/
abbrev F32 := BitVec 32

/-- The command word `cmd[127:0]` (R70). -/
abbrev CmdWord := BitVec 128

/-- The response word `rsp[127:0]` (R76). -/
abbrev RspWord := BitVec 128

end Sys2Proof
end

