-- ==== Sys2Proof/Syntax.lean ====
section
/-! DEFINITION. The instructions of FILTCORE: one constructor per row of spec/opcode_table.json, which is one host
command each (spec 00_scope.md R6; 30_encoding.md R71 to R73). -/

namespace Sys2Proof

/-- A decoded command with its operands. An `F32` operand may be any 32-bit pattern (R72). -/
inductive Instr where
  /-- `BQ.PROC x0` (41_biquad.md R131) -/
  | bqProc (x0 : F32)
  /-- `BQ.DSGN f0, Q, sampleRate` (41_biquad.md R134) -/
  | bqDsgn (f0 q sampleRate : F32)
  /-- `UD.PEEK` (43_unit_delay.md R162) -/
  | udPeek
  /-- `UD.RDADV newValue` (43_unit_delay.md R163) -/
  | udRdadv (newValue : F32)
  /-- `SVF.STEP in, wct, q` (44_svf.md R171) -/
  | svfStep (input wct q : F32)
  /-- `SVF.LOW` (44_svf.md R176) -/
  | svfLow
  /-- `SVF.MID` (44_svf.md R177) -/
  | svfMid
  /-- `SVF.HIGH` (44_svf.md R178) -/
  | svfHigh
  /-- `AUX.N2F note` (42_aux_math.md R151) -/
  | auxN2f (note : F32)
  /-- `AUX.DB2LIN db` (42_aux_math.md R152) -/
  | auxDb2lin (db : F32)
  /-- `RDREG index` (45_debug_read.md R190); `index` is an unsigned 32-bit integer, not an `F32` -/
  | rdreg (index : BitVec 32)
  deriving DecidableEq, Repr

end Sys2Proof
end

