-- ==== Sys2Proof/WellFormed.lean ====
section
/-! DEFINITION. Which instruction terms some legal command word encodes (spec 30_encoding.md R74 (d): the one check on an
operand's value is RDREG's index; every other operand may be any pattern, R72). -/

namespace Sys2Proof

/-- Is the term one that the decoder can give? Only `RDREG` constrains its operand: `zext_32(A) <= 14` (R74 (d), R190). -/
def Instr.wf : Instr → Bool
  | .bqProc _ => true
  | .bqDsgn _ _ _ => true
  | .udPeek => true
  | .udRdadv _ => true
  | .svfStep _ _ _ => true
  | .svfLow => true
  | .svfMid => true
  | .svfHigh => true
  | .auxN2f _ => true
  | .auxDb2lin _ => true
  | .rdreg index => decide (index.toNat ≤ 14)

end Sys2Proof
end

