-- ==== Sys2Proof/Decode.lean ====
section
/-! DEFINITION. The command decoder, total on all 2^128 words and rejecting by name (spec 30_encoding.md R70 to R75), then
the encoder, written from the same tables. The checks read the command word alone, never the state (R74). -/

namespace Sys2Proof

/-- Why a word is illegal: the four checks of R74. All four lead to the same response, so their order cannot be observed
(60_exceptions.md R204). -/
inductive DecodeError where
  /-- R74 (a): the opcode is `0x0` or `0xC` to `0xF`, reserved -/
  | reservedOpcode
  /-- R74 (b): `w[123:96]` is not zero -/
  | reservedBits
  /-- R74 (c): a field that the format marks "must be 0" is not zero (compared as bits: `-0` is not zero) -/
  | unusedField
  /-- R74 (d): `RDREG` with an index above 14 -/
  | registerIndex
  deriving DecidableEq, Repr

/-- What the decoder answers. -/
inductive Decoded where
  /-- a legal word: exactly one command with its operands -/
  | legal (i : Instr)
  /-- an illegal word, with the first check that failed -/
  | illegal (e : DecodeError)
  deriving DecidableEq, Repr

/-- `op = cmd[127:124]` (R70). -/
def opField (w : CmdWord) : BitVec 4 := w.extractLsb' 124 4

/-- `rsv = cmd[123:96]` (R70). -/
def rsvField (w : CmdWord) : BitVec 28 := w.extractLsb' 96 28

/-- First operand, `cmd[95:64]` (R70). -/
def fieldA (w : CmdWord) : BitVec 32 := w.extractLsb' 64 32

/-- Second operand, `cmd[63:32]` (R70). -/
def fieldB (w : CmdWord) : BitVec 32 := w.extractLsb' 32 32

/-- Third operand, `cmd[31:0]` (R70). -/
def fieldC (w : CmdWord) : BitVec 32 := w.extractLsb' 0 32

/-- Format `F0`: all three operand fields must be zero (R71). -/
def decodeF0 (w : CmdWord) (i : Instr) : Decoded :=
  if fieldA w = 0 ∧ fieldB w = 0 ∧ fieldC w = 0 then .legal i else .illegal .unusedField

/-- Format `F1`: `A` is an `F32` operand taken verbatim, `B` and `C` must be zero (R71, R72). -/
def decodeF1 (w : CmdWord) (i : F32 → Instr) : Decoded :=
  if fieldB w = 0 ∧ fieldC w = 0 then .legal (i (fieldA w)) else .illegal .unusedField

/-- Format `F3`: `A`, `B`, `C` are `F32` operands taken verbatim (R71, R72). -/
def decodeF3 (w : CmdWord) (i : F32 → F32 → F32 → Instr) : Decoded :=
  .legal (i (fieldA w) (fieldB w) (fieldC w))

/-- Format `FI`: `A` is an unsigned register index, at most 14; `B` and `C` must be zero (R71, R74 (d)). -/
def decodeFI (w : CmdWord) (i : BitVec 32 → Instr) : Decoded :=
  if fieldB w = 0 ∧ fieldC w = 0 then
    if (fieldA w).toNat ≤ 14 then .legal (i (fieldA w)) else .illegal .registerIndex
  else .illegal .unusedField

/-- The opcode map (R73). -/
def decodeOp (w : CmdWord) : Decoded :=
  match (opField w).toNat with
  | 0x1 => decodeF1 w .bqProc
  | 0x2 => decodeF3 w .bqDsgn
  | 0x3 => decodeF0 w .udPeek
  | 0x4 => decodeF1 w .udRdadv
  | 0x5 => decodeF3 w .svfStep
  | 0x6 => decodeF0 w .svfLow
  | 0x7 => decodeF0 w .svfMid
  | 0x8 => decodeF0 w .svfHigh
  | 0x9 => decodeF1 w .auxN2f
  | 0xA => decodeF1 w .auxDb2lin
  | 0xB => decodeFI w .rdreg
  | _ => .illegal .reservedOpcode

/-- Decoding (R74): a word is legal exactly when every check passes. -/
def decode (w : CmdWord) : Decoded :=
  if rsvField w = 0 then decodeOp w else .illegal .reservedBits

/-- A command word from its fields, `rsv` zero (R70). -/
def packCmd (op : BitVec 4) (a b c : BitVec 32) : CmdWord := op ++ 0#28 ++ a ++ b ++ c

/-- The word of an instruction (R70 to R73); unused fields are zero. -/
def encode : Instr → CmdWord
  | .bqProc x0 => packCmd 0x1 x0 0 0
  | .bqDsgn f0 q sampleRate => packCmd 0x2 f0 q sampleRate
  | .udPeek => packCmd 0x3 0 0 0
  | .udRdadv newValue => packCmd 0x4 newValue 0 0
  | .svfStep input wct q => packCmd 0x5 input wct q
  | .svfLow => packCmd 0x6 0 0 0
  | .svfMid => packCmd 0x7 0 0 0
  | .svfHigh => packCmd 0x8 0 0 0
  | .auxN2f note => packCmd 0x9 note 0 0
  | .auxDb2lin db => packCmd 0xA db 0 0
  | .rdreg index => packCmd 0xB index 0 0

/-- A row of the opcode map: R73's `match` and `mask`. -/
structure OpcodeRow where
  mnemonic : String
  pattern : CmdWord
  mask : CmdWord
  deriving DecidableEq, Repr

/-- The opcode map as R73 tabulates it. The decoder does not read it: it is the table to hold the decoder against. -/
def opcodeRows : List OpcodeRow :=
  [⟨"BQ.PROC", 0x10000000000000000000000000000000#128, 0xFFFFFFFF00000000FFFFFFFFFFFFFFFF#128⟩,
   ⟨"BQ.DSGN", 0x20000000000000000000000000000000#128, 0xFFFFFFFF000000000000000000000000#128⟩,
   ⟨"UD.PEEK", 0x30000000000000000000000000000000#128, 0xFFFFFFFFFFFFFFFFFFFFFFFFFFFFFFFF#128⟩,
   ⟨"UD.RDADV", 0x40000000000000000000000000000000#128, 0xFFFFFFFF00000000FFFFFFFFFFFFFFFF#128⟩,
   ⟨"SVF.STEP", 0x50000000000000000000000000000000#128, 0xFFFFFFFF000000000000000000000000#128⟩,
   ⟨"SVF.LOW", 0x60000000000000000000000000000000#128, 0xFFFFFFFFFFFFFFFFFFFFFFFFFFFFFFFF#128⟩,
   ⟨"SVF.MID", 0x70000000000000000000000000000000#128, 0xFFFFFFFFFFFFFFFFFFFFFFFFFFFFFFFF#128⟩,
   ⟨"SVF.HIGH", 0x80000000000000000000000000000000#128, 0xFFFFFFFFFFFFFFFFFFFFFFFFFFFFFFFF#128⟩,
   ⟨"AUX.N2F", 0x90000000000000000000000000000000#128, 0xFFFFFFFF00000000FFFFFFFFFFFFFFFF#128⟩,
   ⟨"AUX.DB2LIN", 0xA0000000000000000000000000000000#128, 0xFFFFFFFF00000000FFFFFFFFFFFFFFFF#128⟩,
   ⟨"RDREG", 0xB0000000000000000000000000000000#128, 0xFFFFFFFFFFFFFFF0FFFFFFFFFFFFFFFF#128⟩]

/-- The mnemonic of an instruction, as the opcode map spells it (R73). -/
def mnemonicOf : Instr → String
  | .bqProc _ => "BQ.PROC"
  | .bqDsgn _ _ _ => "BQ.DSGN"
  | .udPeek => "UD.PEEK"
  | .udRdadv _ => "UD.RDADV"
  | .svfStep _ _ _ => "SVF.STEP"
  | .svfLow => "SVF.LOW"
  | .svfMid => "SVF.MID"
  | .svfHigh => "SVF.HIGH"
  | .auxN2f _ => "AUX.N2F"
  | .auxDb2lin _ => "AUX.DB2LIN"
  | .rdreg _ => "RDREG"

/-- The word that the opcode table's numbering means: bit 0 is `cmd[0]`, the bits from `nbits` up are zero. A command is
one 128-bit word of parallel bits (20_memory.md R52), so there is no byte order to apply. -/
def tableWord (nbits w : Nat) : CmdWord := BitVec.ofNat 128 (w % 2 ^ nbits)

/-- The instruction the decoder reads from an instruction whose bits are `w`, numbered as spec/opcode_table.json does;
there is one length, 128 bits (R78), so a longer one is none. -/
def decodeTableWord (nbits w : Nat) : Option Instr :=
  if nbits ≤ 128 then
    match decode (tableWord nbits w) with
    | .legal i => some i
    | .illegal _ => none
  else none

end Sys2Proof
end

