-- ==== Sys2Proof/Config.lean ====
section
/-! DEFINITION. What the spec leaves OPEN (00_scope.md R9; 93_implementation_defined.md U1 to U6): constants with no
body, so that no proof can see a value of them and every claim holds for all of them. -/

namespace Sys2Proof

/-- `SIN`, a configuration function (40_numerics.md R117, D7). Log entry 2. -/
opaque Config.sin : F32 → F32

/-- `COS`, a configuration function (R117, D7). Log entry 2. -/
opaque Config.cos : F32 → F32

/-- `EXP2`, a configuration function (R117, D7). Log entry 2. -/
opaque Config.exp2 : F32 → F32

/-- `EXP10`, a configuration function (R117, D7). Log entry 2. -/
opaque Config.exp10 : F32 → F32

/-- `COEF_RESET` (10_state.md R27, 70_reset_and_hazards.md R230): the patterns of `BQ.b0`, `b1`, `b2`, `a1`, `a2` (0 to 4)
after the reset whose draw index is the first argument; "drawn anew at each reset". Log entry 1. -/
opaque Config.coefReset : Nat → Fin 5 → F32

/-- `NAN_DRAW` (R113, U1): the sign of the NaN created at a draw index. Log entry 3. -/
opaque Config.nanSign : Nat → Bool

/-- `NAN_DRAW` (R113, U1): the fraction of the NaN created at a draw index, less 1; so the fraction runs over
1 to 2^23 - 1 and every NaN pattern is possible. Log entry 3. -/
opaque Config.nanFraction : Nat → Fin 8388607

/-- `LAT` less 1 (30_encoding.md R80, 70_reset_and_hazards.md R245, U6), a free value for each accepted command, by its number:
it may depend on anything. Only the pin-level layer (Machine/Port.lean) reads it; no rule of the functional model does. Log
entry 12. -/
opaque Config.latency : Nat → Nat

end Sys2Proof
end

