-- ==== Sys2Proof/Machine/State.lean ====
section
/-! DEFINITION. The state of FILTCORE as plain data: the 15 registers of spec 10_state.md R20 by component, and what the
command port adds (00_scope.md R6, 30_encoding.md R80); the state after reset; how a step can stop. -/

namespace Sys2Proof.Machine

/-- The biquad's four history registers (R21): the last two inputs and the last two outputs. -/
structure History where
  x1 : F32
  x2 : F32
  y1 : F32
  y2 : F32
  deriving DecidableEq, Repr

/-- The biquad's five coefficient registers (R22), stored normalized by `a0`. -/
structure Coefs where
  b0 : F32
  b1 : F32
  b2 : F32
  a1 : F32
  a2 : F32
  deriving DecidableEq, Repr

/-- The biquad kernel's registers, numbers 0 to 8 (R20). -/
structure Biquad where
  hist : History
  coef : Coefs
  deriving DecidableEq, Repr

/-- The SVF kernel's registers, numbers 9 to 13 (R20, R24): two unit-delay cells and three outputs. -/
structure Svf where
  z1 : F32
  z2 : F32
  low : F32
  mid : F32
  high : F32
  deriving DecidableEq, Repr

/-- The free-standing unit-delay cell `UD0`, register 14 (R20, R23, R160). -/
structure UnitDelay where
  v : F32
  deriving DecidableEq, Repr

/-- The names of the 15 registers (R20). -/
inductive RegName where
  | bqX1 | bqX2 | bqY1 | bqY2
  | bqB0 | bqB1 | bqB2 | bqA1 | bqA2
  | svfZ1 | svfZ2 | svfLow | svfMid | svfHigh
  | ud0V
  deriving DecidableEq, Repr

/-- What the host can do to the block (00_scope.md R5, R6; 30_encoding.md R81; 70_reset_and_hazards.md R230, R232). -/
inductive HostEvent where
  /-- a command word is accepted, and its response is delivered before the next event (R80) -/
  | command (w : CmdWord)
  /-- `rst` is sampled high with no command in flight (R230) -/
  | reset
  /-- `w` is accepted and `rst` is sampled high before its response is delivered: the command is abandoned (R232) -/
  | resetInFlight (w : CmdWord)
  /-- the host lets time pass with no command accepted (R81) -/
  | idle
  /-- power or the clock is removed (60_exceptions.md R215, U13) -/
  | powerLoss
  deriving DecidableEq, Repr

/-- The state. `bq`, `svf` and `ud0` are the whole architectural state (R20). -/
structure State where
  bq : Biquad
  svf : Svf
  ud0 : UnitDelay
  /-- the response word the last step delivered (R76); `none` if it delivered none (reset, no command) -/
  rsp : Option RspWord
  /-- what the host will do, next first: the command stream of R5 and R57 -/
  inputs : List HostEvent
  /-- MODEL'S OWN, not the spec's: the index of the next free value (a created NaN, R113; a reset's coefficients, R27) -/
  draws : Nat
  deriving DecidableEq, Repr

/-- FILTCORE has no faults (60_exceptions.md R200; 93_implementation_defined.md: "There is no behaviour in this spec with
treatment fault or stuck"), so there is no reason to name, and no step can answer one. -/
inductive Fault where
  deriving DecidableEq, Repr

/-- Why a step gives no meaning. No instruction's meaning answers one of these. -/
inductive Refusal where
  /-- An instruction that has no meaning yet, by the mnemonic of the opcode table. Raised by exec's arms only (none now). Safe. -/
  | notModelled (mnemonic : String)
  /-- Power or the clock is removed: what happens to the state is outside the spec (R215, U7, U13: "refuse"). Raised by the
  host event `powerLoss`. Safe: the model stops. -/
  | powerRemoved
  /-- The host broke the port's protocol: it withdrew or changed an offered command before its acceptance (R81, U9: "refuse").
  Raised by the pin-level layer (Machine/Port.lean) only. Safe: the model stops. -/
  | portProtocol
  deriving DecidableEq, Repr

/-- The state a reset leaves (R27, R230), at draw index `n`: the ten registers 0 to 3 and 9 to 14 are `+0`, the five
coefficient registers are this reset's `COEF_RESET`, nothing is offered on the response channel. `inputs` is what the host
does after the reset. The next free value is a new one. -/
def State.afterReset (n : Nat) (inputs : List HostEvent) : State where
  bq := { hist := { x1 := 0, x2 := 0, y1 := 0, y2 := 0 }
          coef := { b0 := Config.coefReset n 0, b1 := Config.coefReset n 1, b2 := Config.coefReset n 2
                    a1 := Config.coefReset n 3, a2 := Config.coefReset n 4 } }
  svf := { z1 := 0, z2 := 0, low := 0, mid := 0, high := 0 }
  ud0 := { v := 0 }
  rsp := none
  inputs := inputs
  draws := n + 1

/-- The machine right after reset (R230), the host having done nothing yet. The draw index it starts from is the model's own
(log entry 3). -/
def State.reset : State := State.afterReset 0 []

end Sys2Proof.Machine
end

