-- ==== Sys2Proof/Machine/Flags.lean ====
section
/-! DEFINITION. FILTCORE has no flag, condition code or status register (spec 10_state.md R31; 40_numerics.md R114). The only
status it reports is the `status` field of a response (30_encoding.md R76), "a function of the command word alone" and not
stored: its two values and the response word are here. -/

namespace Sys2Proof.Machine

/-- The two values of `status` that are ever produced (R76). -/
inductive Status where
  | ok
  | errIllegal
  deriving DecidableEq, Repr

/-- `0x0` = `OK`, `0x1` = `ERR_ILLEGAL` (R76). -/
def Status.code : Status → BitVec 4
  | .ok => 0x0
  | .errIllegal => 0x1

/-- `respond(s, d0, d1, d2)` is `{s[3:0], zext_28(0), d0, d1, d2}` (R76). -/
def respond (st : Status) (d0 d1 d2 : F32) : RspWord := st.code ++ 0#28 ++ d0 ++ d1 ++ d2

end Sys2Proof.Machine
end

