-- ==== Sys2Proof/Machine/Numerics.lean ====
section
/-! DEFINITION. IEEE 754 binary32 as spec 40_numerics.md gives it: the format (R100), rounding (R101), the primitives
(R104 to R108), the constants (R116). A primitive's first argument is the NaN it answers where its rule says
"return NaN" (R113): the caller supplies a fresh draw for each operation. -/

namespace Sys2Proof.Machine

/-- The sign `p[31]` (R100). -/
def signOf (p : F32) : Bool := p.msb

/-- The biased exponent `p[30:23]` (R100). -/
def expOf (p : F32) : Nat := (p.extractLsb' 23 8).toNat

/-- The fraction `p[22:0]` (R100). -/
def fracOf (p : F32) : Nat := (p.extractLsb' 0 23).toNat

/-- The classes of R100. -/
inductive FpClass where
  | zero | subnormal | normal | infinity | quietNaN | signalingNaN
  deriving DecidableEq, Repr

/-- The class of a pattern, row by row of R100's table. -/
def classOf (p : F32) : FpClass :=
  if expOf p = 255 then
    if fracOf p = 0 then .infinity else if 2 ^ 22 ≤ fracOf p then .quietNaN else .signalingNaN
  else if expOf p = 0 then
    if fracOf p = 0 then .zero else .subnormal
  else .normal

/-- `e = 255`, `f != 0` (R100); signaling and quiet alike (R113). -/
def isNaN (p : F32) : Bool := expOf p == 255 && fracOf p != 0

/-- `e = 255`, `f = 0` (R100). -/
def isInf (p : F32) : Bool := expOf p == 255 && fracOf p == 0

/-- `+0` or `-0` (R100). -/
def isZero (p : F32) : Bool := expOf p == 0 && fracOf p == 0

/-- A zero, a subnormal or a normal number (R100). -/
def isFinite (p : F32) : Bool := expOf p != 255

/-- The magnitude of a finite pattern in units of `2^-149`, the smallest subnormal (R100): `f` for a zero or subnormal,
`(2^23 + f) * 2^(e-1)` for a normal. On an infinity the same formula gives `2^277` units, which is `2^128`: the bound at
which R101 overflows. -/
def magOf (p : F32) : Nat :=
  if expOf p = 0 then fracOf p else (2 ^ 23 + fracOf p) * 2 ^ (expOf p - 1)

/-- The magnitude with its sign, in units of `2^-149`. -/
def unitsOf (p : F32) : Int := if signOf p then -(magOf p : Int) else (magOf p : Int)

/-- The real number a finite pattern stands for (R100). -/
def valueOf (p : F32) : Rat := (unitsOf p : Rat) / 2 ^ 149

/-- The pattern with a given sign `p[31]` and lower bits `p[30:0]` (a number below `2^31`). -/
def packBits (s : Bool) (low31 : Nat) : F32 := BitVec.ofNat 32 ((if s then 2 ^ 31 else 0) + low31)

/-- The zero with a given sign: `+0` is `0x00000000`, `-0` is `0x80000000` (R11). -/
def zeroOf (s : Bool) : F32 := packBits s 0

/-- The infinity with a given sign (R100). -/
def infOf (s : Bool) : F32 := packBits s (255 * 2 ^ 23)

/-- A NaN pattern: `e = 255` and a fraction that is not 0 (R100); `k` is the fraction less 1. -/
def nanOf (s : Bool) (k : Fin 8388607) : F32 := packBits s (255 * 2 ^ 23 + (k.val + 1))

/-- `num / den` rounded to the nearest integer; a tie goes to the even integer (R101). -/
def nearestEven (num den : Nat) : Nat :=
  let n := num / den
  let rest := 2 * (num % den)
  if rest < den then n else if den < rest then n + 1 else n + n % 2

/-- R101's `v = n * q` for the magnitude `num / den` in units of `2^-149`. With `L = floor(log2(num / den))` the spacing `q`
is `2^(L - 23)` units, and one unit below the smallest normal (the truncated subtraction is R101's clamp at `-126`). -/
def roundUnits (num den : Nat) : Nat :=
  let q := 2 ^ (Nat.log2 (num / den) - 23)
  nearestEven num (den * q) * q

/-- The pattern of sign `s` and magnitude `v` units, `v` a multiple of its spacing (R101's last three lines): an infinity
from `2^128` up, else the subnormal or normal number (0 gives the zero of sign `s`). -/
def packUnits (s : Bool) (v : Nat) : F32 :=
  if 2 ^ 128 * 2 ^ 149 ≤ v then infOf s
  else
    let k := Nat.log2 v - 23
    packBits s (k * 2 ^ 23 + v / 2 ^ k)

/-- `round32(r, zs)` (R101) for the real number of sign `s` and magnitude `num / den` units of `2^-149`; `zs` is the sign of
an exact zero. Round to nearest, ties to even, gradual underflow: the only mode. -/
def round32 (s : Bool) (num den : Nat) (zs : Bool) : F32 :=
  if num = 0 then zeroOf zs else packUnits s (roundUnits num den)

/-- `fadd(a, b)` (R104), case by case. -/
def fadd (nan a b : F32) : F32 :=
  if isNaN a || isNaN b then nan
  else if isInf a && isInf b && signOf a != signOf b then nan
  else if isInf a then a
  else if isInf b then b
  else if isZero a && isZero b then zeroOf (signOf a && signOf b)
  else
    let r := unitsOf a + unitsOf b
    round32 (decide (r < 0)) r.natAbs 1 false

/-- `fneg(a)` (R108): inverts bit 31; of a NaN it is a NaN (R113, U1). -/
def fneg (nan a : F32) : F32 := if isNaN a then nan else a ^^^ 0x80000000#32

/-- `fsub(a, b)` (R105): `fadd(a, fneg(b))` when `b` is not a NaN, a NaN when `a` or `b` is one. -/
def fsub (nan a b : F32) : F32 := if isNaN a || isNaN b then nan else fadd nan a (fneg nan b)

/-- `fmul(a, b)` (R106), case by case. The product of magnitudes is in units of `2^-298`, so `den` is `2^149`. -/
def fmul (nan a b : F32) : F32 :=
  let s := signOf a ^^ signOf b
  if isNaN a || isNaN b then nan
  else if (isInf a && isZero b) || (isZero a && isInf b) then nan
  else if isInf a || isInf b then infOf s
  else if isZero a || isZero b then zeroOf s
  else round32 s (magOf a * magOf b) (2 ^ 149) s

/-- `fdiv(a, b)`, `a` divided by `b` (R107), case by case; a division by zero is silent. -/
def fdiv (nan a b : F32) : F32 :=
  let s := signOf a ^^ signOf b
  if isNaN a || isNaN b then nan
  else if isInf a && isInf b then nan
  else if isZero a && isZero b then nan
  else if isInf a then infOf s
  else if isInf b then zeroOf s
  else if isZero b then infOf s
  else if isZero a then zeroOf s
  else round32 s (magOf a * 2 ^ 149) (magOf b) s

/-- A configuration function applied to its argument (R117): it depends on the argument alone, and a NaN result is subject
to the draw of R113. -/
def applyConfig (f : F32 → F32) (nan a : F32) : F32 := if isNaN (f a) then nan else f a

/-- R116's literals. -/
def one : F32 := 0x3F800000#32
@[inherit_doc one] def two : F32 := 0x40000000#32
@[inherit_doc one] def minusTwo : F32 := 0xC0000000#32
@[inherit_doc one] def twelve : F32 := 0x41400000#32
@[inherit_doc one] def twenty : F32 := 0x41A00000#32
@[inherit_doc one] def sixtyNine : F32 := 0x428A0000#32
@[inherit_doc one] def fourForty : F32 := 0x43DC0000#32
/-- `TWO_PI` (R116, D8): the binary32 number nearest to 2π. -/
def twoPi : F32 := 0x40C90FDB#32

end Sys2Proof.Machine
end

