-- ==== Sys2Proof/Machine/Operands.lean ====
section
/-! DEFINITION. The one operand form that is not a verbatim `F32`: a register by number or name (spec 00_scope.md R12;
10_state.md R20; 20_memory.md R51). -/

namespace Sys2Proof.Machine

/-- The register of a number (R20's first two columns); numbers above 14 name nothing (R51). -/
def RegName.ofNumber : Nat → Option RegName
  | 0 => some .bqX1
  | 1 => some .bqX2
  | 2 => some .bqY1
  | 3 => some .bqY2
  | 4 => some .bqB0
  | 5 => some .bqB1
  | 6 => some .bqB2
  | 7 => some .bqA1
  | 8 => some .bqA2
  | 9 => some .svfZ1
  | 10 => some .svfZ2
  | 11 => some .svfLow
  | 12 => some .svfMid
  | 13 => some .svfHigh
  | 14 => some .ud0V
  | _ => none

/-- The number of a register (R20). -/
def RegName.number : RegName → Nat
  | .bqX1 => 0
  | .bqX2 => 1
  | .bqY1 => 2
  | .bqY2 => 3
  | .bqB0 => 4
  | .bqB1 => 5
  | .bqB2 => 6
  | .bqA1 => 7
  | .bqA2 => 8
  | .svfZ1 => 9
  | .svfZ2 => 10
  | .svfLow => 11
  | .svfMid => 12
  | .svfHigh => 13
  | .ud0V => 14

/-- Reading a register by name, all 32 bits unchanged (R109). -/
def State.read (s : State) : RegName → F32
  | .bqX1 => s.bq.hist.x1
  | .bqX2 => s.bq.hist.x2
  | .bqY1 => s.bq.hist.y1
  | .bqY2 => s.bq.hist.y2
  | .bqB0 => s.bq.coef.b0
  | .bqB1 => s.bq.coef.b1
  | .bqB2 => s.bq.coef.b2
  | .bqA1 => s.bq.coef.a1
  | .bqA2 => s.bq.coef.a2
  | .svfZ1 => s.svf.z1
  | .svfZ2 => s.svf.z2
  | .svfLow => s.svf.low
  | .svfMid => s.svf.mid
  | .svfHigh => s.svf.high
  | .ud0V => s.ud0.v

/-- `x[i]` (R12), for an index of any size; indices above 14 name nothing. -/
def State.readIndex (s : State) (i : Nat) : Option F32 := (RegName.ofNumber i).map s.read

end Sys2Proof.Machine
end

