-- ==== Sys2Proof/Machine/Ops.lean ====
section
/-! DEFINITION. The operations the commands share: answering, refusing an illegal word, resetting, the free NaN draws, and
the unit-delay cell (spec 30_encoding.md R75, R77; 70_reset_and_hazards.md R230; 40_numerics.md R113; 43_unit_delay.md
R161). FILTCORE takes no exception and has no return from one (60_exceptions.md R200, R205, R206); the one thing that
stands in that place is the `ERR_ILLEGAL` response. -/

namespace Sys2Proof.Machine

/-- The NaN created at draw index `n` (R113): any NaN pattern. -/
def nanDraw (n : Nat) : F32 := nanOf (Config.nanSign n) (Config.nanFraction n)

/-- Respond and leave the rest of the state as it is. -/
def State.answer (st : Status) (d0 d1 d2 : F32) (s : State) : State := { s with rsp := some (respond st d0 d1 d2) }

/-- A response with `status = OK` and one data word; the others are `+0` (R76, R77). -/
def State.answerOne (d0 : F32) (s : State) : State := s.answer .ok d0 0 0

/-- What an illegal command word does (R75, R202): no register changes, the response is `ERR_ILLEGAL` with zero data, nothing
is recorded. -/
def State.answerIllegal (s : State) : State := s.answer .errIllegal 0 0 0

/-- `k` free values have been used. -/
def State.drew (k : Nat) (s : State) : State := { s with draws := s.draws + k }

/-- `rst` (R230, R232): every register takes its reset value, nothing is answered; the coefficients are drawn anew. -/
def State.applyReset (inputs : List HostEvent) (s : State) : State := State.afterReset s.draws inputs

/-- `peek(c)` (R161): the cell's value, the cell unchanged. -/
def peek (c : F32) : F32 := c

/-- `read_and_advance(c, v)` (R161): the old value, and the cell after the store. -/
def readAndAdvance (c v : F32) : F32 × F32 := (peek c, v)

/-- `write(c, v)` (R161, D26): `read_and_advance` whose returned value is discarded; the cell after the store. -/
def writeCell (c v : F32) : F32 := (readAndAdvance c v).2

end Sys2Proof.Machine
end

