-- ==== Sys2Proof/Machine/AuxMath.lean ====
section
/-! DEFINITION. The auxiliary math commands AUX.N2F and AUX.DB2LIN (spec 42_aux_math.md R150 to R152): they read and write no
register. -/

namespace Sys2Proof.Machine

/-- `440 · 2^((note-69)/12)` (R151) for a given `EXP2`. Four operations. -/
def noteToFrequency (exp2 : F32 → F32) (n : Nat) (note : F32) : F32 :=
  let d := fsub (nanDraw n) note sixtyNine
  let e := fdiv (nanDraw (n + 1)) d twelve
  let p := applyConfig exp2 (nanDraw (n + 2)) e
  fmul (nanDraw (n + 3)) fourForty p

/-- `10^(db/20)` (R152) for a given `EXP10`. Two operations. -/
def decibelsToLinear (exp10 : F32 → F32) (n : Nat) (db : F32) : F32 :=
  let e := fdiv (nanDraw n) db twenty
  applyConfig exp10 (nanDraw (n + 1)) e

/-- `AUX.N2F note` (R151). -/
def execAuxN2f (note : F32) (s : State) : Host.Outcome State Fault Refusal :=
  .next ((s.drew 4).answerOne (noteToFrequency Config.exp2 s.draws note))

/-- `AUX.DB2LIN db` (R152). -/
def execAuxDb2lin (db : F32) (s : State) : Host.Outcome State Fault Refusal :=
  .next ((s.drew 2).answerOne (decibelsToLinear Config.exp10 s.draws db))

end Sys2Proof.Machine
end

