-- ==== Sys2Proof/Machine/Biquad.lean ====
section
/-! DEFINITION. The biquad kernel: BQ.PROC and BQ.DSGN (spec 41_biquad.md R130 to R136). Reads observe the state before the
command and all writes commit together (00_scope.md R14). Every primitive has a draw index of its own, in the order of the
pseudocode. -/

namespace Sys2Proof.Machine

/-- `y0` of BQ.PROC (R131): five rounded products, summed left to right; nine operations. -/
def biquadOutput (n : Nat) (b : Biquad) (x0 : F32) : F32 :=
  let t1 := fmul (nanDraw n) b.coef.b0 x0
  let t2 := fmul (nanDraw (n + 1)) b.coef.b1 b.hist.x1
  let t3 := fmul (nanDraw (n + 2)) b.coef.b2 b.hist.x2
  let t4 := fmul (nanDraw (n + 3)) b.coef.a1 b.hist.y1
  let t5 := fmul (nanDraw (n + 4)) b.coef.a2 b.hist.y2
  let u1 := fadd (nanDraw (n + 5)) t1 t2
  let u2 := fadd (nanDraw (n + 6)) u1 t3
  let u3 := fsub (nanDraw (n + 7)) u2 t4
  fsub (nanDraw (n + 8)) u3 t5

/-- The history shift of BQ.PROC (R131): `x2←x1, x1←x0, y2←y1, y1←y0`, all from the values before the command. -/
def History.shift (h : History) (x0 y0 : F32) : History := { x1 := x0, x2 := h.x1, y1 := y0, y2 := h.y1 }

/-- `BQ.PROC x0` (R131). -/
def execBqProc (x0 : F32) (s : State) : Host.Outcome State Fault Refusal :=
  let y0 := biquadOutput s.draws s.bq x0
  .next (({ s with bq := { s.bq with hist := s.bq.hist.shift x0 y0 } }.drew 9).answerOne y0)

/-- The design of BQ.DSGN after `SIN` and `COS` (R134): from `sw`, `cw` and `Q` the five normalized coefficients. `a0` is not
stored; each coefficient is one true division by it. Twelve operations. -/
def normalizedCoefs (n : Nat) (sw cw q : F32) : Coefs :=
  let alpha := fdiv (nanDraw (n + 1)) sw (fmul (nanDraw n) two q)
  let t := fsub (nanDraw (n + 2)) one cw
  let b0u := fdiv (nanDraw (n + 3)) t two
  let b1u := t
  let b2u := b0u
  let a0 := fadd (nanDraw (n + 4)) one alpha
  let a1u := fmul (nanDraw (n + 5)) minusTwo cw
  let a2u := fsub (nanDraw (n + 6)) one alpha
  { b0 := fdiv (nanDraw (n + 7)) b0u a0
    b1 := fdiv (nanDraw (n + 8)) b1u a0
    b2 := fdiv (nanDraw (n + 9)) b2u a0
    a1 := fdiv (nanDraw (n + 10)) a1u a0
    a2 := fdiv (nanDraw (n + 11)) a2u a0 }

/-- `w0` of BQ.DSGN (R134): `(2π·f0)/sampleRate`. Two operations. -/
def angularCutoff (n : Nat) (f0 sampleRate : F32) : F32 :=
  fdiv (nanDraw (n + 1)) (fmul (nanDraw n) twoPi f0) sampleRate

/-- `designLowpass(f0, Q, sampleRate)` (R134) for given `SIN` and `COS`; `cos(w0)` is computed once. Sixteen operations. -/
def designLowpass (sin cos : F32 → F32) (n : Nat) (f0 q sampleRate : F32) : Coefs :=
  let w0 := angularCutoff n f0 sampleRate
  let sw := applyConfig sin (nanDraw (n + 2)) w0
  let cw := applyConfig cos (nanDraw (n + 3)) w0
  normalizedCoefs (n + 4) sw cw q

/-- `BQ.DSGN f0, Q, sampleRate` (R134 to R136): writes the five coefficient registers and nothing else. -/
def execBqDsgn (f0 q sampleRate : F32) (s : State) : Host.Outcome State Fault Refusal :=
  let c := designLowpass Config.sin Config.cos s.draws f0 q sampleRate
  .next (({ s with bq := { s.bq with coef := c } }.drew 16).answer .ok 0 0 0)

end Sys2Proof.Machine
end

