-- ==== Sys2Proof/Machine/Observe.lean ====
section
/-! DEFINITION. The register observation command RDREG (spec 45_debug_read.md R190, R191). -/

namespace Sys2Proof.Machine

/-- `RDREG index` (R190): the register's 32 bits unchanged; an index above 14 is an illegal command. -/
def execRdreg (index : BitVec 32) (s : State) : Host.Outcome State Fault Refusal :=
  match s.readIndex index.toNat with
  | some v => .next (s.answerOne v)
  | none => .next s.answerIllegal

end Sys2Proof.Machine
end

