-- ==== Sys2Proof/Machine/Svf.lean ====
section
/-! DEFINITION. The state-variable filter: SVF.STEP and the accessors (spec 44_svf.md R170 to R179; the sign of the resonance
term follows R173 and 90_conflicts.md C1: `fb` is added). -/

namespace Sys2Proof.Machine

/-- One step of the SVF (R171) from its registers: every use of `z1`, `z2` is the value before the step (R174), `mid` is the
old `z2` (R172), and the new `z2` is `band`. Eight operations. -/
def svfNext (n : Nat) (f : Svf) (input wct q : F32) : Svf :=
  let z1o := peek f.z1
  let z2o := peek f.z2
  let fb := fneg (nanDraw (n + 1)) (fmul (nanDraw n) q z2o)
  let low := fadd (nanDraw (n + 3)) (fmul (nanDraw (n + 2)) wct z2o) z1o
  let high := fadd (nanDraw (n + 5)) (fsub (nanDraw (n + 4)) input low) fb
  let band := fadd (nanDraw (n + 7)) (fmul (nanDraw (n + 6)) wct high) z2o
  { z1 := writeCell f.z1 low, z2 := writeCell f.z2 band, low := low, mid := z2o, high := high }

/-- `SVF.STEP in, wct, q` (R171): the response carries the three new outputs (R77). -/
def execSvfStep (input wct q : F32) (s : State) : Host.Outcome State Fault Refusal :=
  let f := svfNext s.draws s.svf input wct q
  .next (({ s with svf := f }.drew 8).answer .ok f.low f.mid f.high)

/-- `SVF.LOW` (R176). -/
def execSvfLow (s : State) : Host.Outcome State Fault Refusal := .next (s.answerOne s.svf.low)

/-- `SVF.MID` (R177): the `z2` of before the last step, not the current `z2`. -/
def execSvfMid (s : State) : Host.Outcome State Fault Refusal := .next (s.answerOne s.svf.mid)

/-- `SVF.HIGH` (R178). -/
def execSvfHigh (s : State) : Host.Outcome State Fault Refusal := .next (s.answerOne s.svf.high)

end Sys2Proof.Machine
end

