-- ==== Sys2Proof/Machine/UnitDelay.lean ====
section
/-! DEFINITION. The commands on the free-standing unit-delay cell: UD.PEEK and UD.RDADV (spec 43_unit_delay.md R160 to R165),
over the cell operations of Machine/Ops.lean. -/

namespace Sys2Proof.Machine

/-- `UD.PEEK` (R162): a pure read with no mutation. -/
def execUdPeek (s : State) : Host.Outcome State Fault Refusal := .next (s.answerOne (peek s.ud0.v))

/-- `UD.RDADV newValue` (R163): read first, then store, bit for bit; the response carries the old value. -/
def execUdRdadv (newValue : F32) (s : State) : Host.Outcome State Fault Refusal :=
  let r := readAndAdvance s.ud0.v newValue
  .next ({ s with ud0 := { v := r.2 } }.answerOne r.1)

/-- The pseudo-command `ud.write v` (R79, R164) is the word of `UD.RDADV v`; the host ignores the response's data. -/
def udWrite (v : F32) : Instr := .udRdadv v

end Sys2Proof.Machine
end

