-- ==== Sys2Proof/Machine/Dispatch.lean ====
section
/-! DEFINITION. One arm per instruction: `exec` of spec 00_scope.md R6 on a decoded command. -/

namespace Sys2Proof.Machine

def exec (i : Instr) (s : State) : Host.Outcome State Fault Refusal :=
  match i with
  | .bqProc x0 => Sys2Proof.Machine.execBqProc x0 s
  | .bqDsgn f0 q sampleRate => Sys2Proof.Machine.execBqDsgn f0 q sampleRate s
  | .udPeek => Sys2Proof.Machine.execUdPeek s
  | .udRdadv newValue => Sys2Proof.Machine.execUdRdadv newValue s
  | .svfStep input wct q => Sys2Proof.Machine.execSvfStep input wct q s
  | .svfLow => Sys2Proof.Machine.execSvfLow s
  | .svfMid => Sys2Proof.Machine.execSvfMid s
  | .svfHigh => Sys2Proof.Machine.execSvfHigh s
  | .auxN2f note => Sys2Proof.Machine.execAuxN2f note s
  | .auxDb2lin db => Sys2Proof.Machine.execAuxDb2lin db s
  | .rdreg index => Sys2Proof.Machine.execRdreg index s

end Sys2Proof.Machine
end

