-- ==== Sys2Proof/Machine/Stream.lean ====
section
/-! DEFINITION. The command stream (spec 00_scope.md R5, R6; 20_memory.md R57): how a command word is run, and what each thing
the host can do does. FILTCORE has no program counter and fetches nothing (10_state.md R30): the host supplies the words. -/

namespace Sys2Proof.Machine

/-- `exec` of R6 on a command word: a legal word runs its command, an illegal one is answered with `ERR_ILLEGAL` (R74, R75). -/
def runWord (w : CmdWord) (s : State) : Host.Outcome State Fault Refusal :=
  match decode w with
  | .legal i => exec i s
  | .illegal _ => .next s.answerIllegal

/-- The state with the next host event taken off the stream. -/
def State.withInputs (inputs : List HostEvent) (s : State) : State := { s with inputs := inputs }

/-- No command is accepted: the 15 registers keep their values (30_encoding.md R81, 60_exceptions.md R215) and no response is
delivered. -/
def State.stayIdle (s : State) : State := { s with rsp := none }

/-- One host event (R5, R81, R230, R232, R215). With nothing left in the stream the block is idle. -/
def takeEvent (s : State) : Host.Outcome State Fault Refusal :=
  match s.inputs with
  | [] => .next s.stayIdle
  | .command w :: rest => runWord w (s.withInputs rest)
  | .reset :: rest => .next (s.applyReset rest)
  | .resetInFlight _ :: rest => .next (s.applyReset rest)
  | .idle :: rest => .next (s.withInputs rest).stayIdle
  | .powerLoss :: _ => .refused .powerRemoved

/-- The state after a sequence of command words, and their responses: the fold of `exec` over the sequence (R57 (a)). -/
def runWords : List CmdWord → State → Option (State × List RspWord)
  | [], s => some (s, [])
  | w :: ws, s =>
    match runWord w s with
    | .next t => (runWords ws t).map fun (u, rs) => (u, t.rsp.toList ++ rs)
    | .fault _ => none
    | .refused _ => none

/-- The state in which the very next step accepts and runs the word of an opcode-table row. -/
def State.offerWord (s : State) (nbits w : Nat) : State :=
  s.withInputs (.command (tableWord nbits w) :: s.inputs)

end Sys2Proof.Machine
end

