-- ==== Sys2Proof/Machine/Step.lean ====
section
/-! DEFINITION. One step of the machine: one host event, at the level of whole commands (spec 00_scope.md R5, R6;
30_encoding.md R80, last sentence). -/

namespace Sys2Proof.Machine

/-- One step: the next host event is taken and done, a command whole (R14). -/
def step (s : State) : Host.Outcome State Fault Refusal := takeEvent s

/-- `s` with an instruction's word placed where the next step takes its command from: the head of the host's stream (there
is no program counter, R30). -/
def State.withFetchWord (s : State) (nbits w : Nat) : State := s.offerWord nbits w

end Sys2Proof.Machine
end

