-- ==== Sys2Proof/Machine/Assembler.lean ====
section
/-! DEFINITION. The textual syntax of command streams (spec 30_encoding.md R79): from a line of text to its command word.
Nothing of the machine reads it. -/

namespace Sys2Proof.Machine

/-- The value of a decimal digit. -/
def digitOf (c : Char) : Option Nat := if '0' ≤ c ∧ c ≤ '9' then some (c.toNat - '0'.toNat) else none

/-- The value of a hexadecimal digit, in either case. -/
def hexDigitOf (c : Char) : Option Nat :=
  if '0' ≤ c ∧ c ≤ '9' then some (c.toNat - '0'.toNat)
  else if 'a' ≤ c ∧ c ≤ 'f' then some (c.toNat - 'a'.toNat + 10)
  else if 'A' ≤ c ∧ c ≤ 'F' then some (c.toNat - 'A'.toNat + 10)
  else none

/-- The number that a list of hexadecimal digits spells. -/
def readHex : List Char → Nat → Option Nat
  | [], v => some v
  | c :: cs, v =>
    match hexDigitOf c with
    | some d => readHex cs (16 * v + d)
    | none => none

/-- What a run of decimal digits gives: the number so far with the digits appended, how many there were, and the rest. -/
structure Digits where
  value : Nat
  count : Nat
  rest : List Char

/-- The decimal digits at the front of a text. -/
def readDigits : List Char → Nat → Nat → Digits
  | [], v, k => { value := v, count := k, rest := [] }
  | c :: cs, v, k =>
    match digitOf c with
    | some d => readDigits cs (10 * v + d) (k + 1)
    | none => { value := v, count := k, rest := c :: cs }

/-- The binary32 value nearest to `m * 10^(up - down)` with a sign, ties to even (R79, R101). -/
def decimalValue (s : Bool) (m up down : Nat) : F32 := round32 s (m * 10 ^ up * 2 ^ 149) (10 ^ down) s

/-- The exponent part of a decimal literal, after its digits: nothing, or `e`, a sign if any, and digits. -/
def readExponent (s : Bool) (m down : Nat) : List Char → Option F32
  | [] => some (decimalValue s m 0 down)
  | c :: cs =>
    if c = 'e' ∨ c = 'E' then
      let negative := cs.head? = some '-'
      let digits := if negative ∨ cs.head? = some '+' then cs.tail else cs
      let d := readDigits digits 0 0
      if d.count = 0 ∨ d.rest ≠ [] then none
      else if negative then some (decimalValue s m 0 (down + d.value)) else some (decimalValue s m d.value down)
    else none

/-- A decimal literal without its sign: digits, a point and digits if any, an exponent if any (R79). -/
def readDecimal (s : Bool) (cs : List Char) : Option F32 :=
  let whole := readDigits cs 0 0
  if whole.count = 0 then none
  else
    match whole.rest with
    | '.' :: more =>
      let part := readDigits more whole.value 0
      if part.count = 0 then none else readExponent s part.value part.count part.rest
    | more => readExponent s whole.value 0 more

/-- An `F32` operand: a bit pattern of exactly 8 hexadecimal digits, an infinity, or a decimal literal (R79). -/
def parseF32 (cs : List Char) : Option F32 :=
  if cs = "inf".toList then some (infOf false)
  else if cs = "-inf".toList then some (infOf true)
  else
    match cs with
    | '0' :: 'x' :: digits => if digits.length = 8 then (readHex digits 0).map (BitVec.ofNat 32) else none
    | '-' :: rest => readDecimal true rest
    | _ => readDecimal false cs

/-- The register names of R20. -/
def regNames : List (String × RegName) :=
  [("BQ.x1", .bqX1), ("BQ.x2", .bqX2), ("BQ.y1", .bqY1), ("BQ.y2", .bqY2), ("BQ.b0", .bqB0), ("BQ.b1", .bqB1),
   ("BQ.b2", .bqB2), ("BQ.a1", .bqA1), ("BQ.a2", .bqA2), ("SVF.z1", .svfZ1), ("SVF.z2", .svfZ2), ("SVF.low", .svfLow),
   ("SVF.mid", .svfMid), ("SVF.high", .svfHigh), ("UD0.v", .ud0V)]

/-- The operand of `RDREG`: a decimal register number 0 to 14, or a register name of R20 (R79). -/
def parseRegister (cs : List Char) : Option (BitVec 32) :=
  match regNames.find? (fun e => e.1.toList = cs) with
  | some e => some (BitVec.ofNat 32 e.2.number)
  | none =>
    let d := readDigits cs 0 0
    if d.count = 0 ∨ d.rest ≠ [] ∨ 14 < d.value then none else some (BitVec.ofNat 32 d.value)

/-- Is the character a space or a tab? -/
def isBlank (c : Char) : Bool := c == ' ' || c == '\t'

/-- A text without the blanks at its two ends. -/
def trimBlanks (cs : List Char) : List Char := ((cs.dropWhile isBlank).reverse.dropWhile isBlank).reverse

/-- The pieces of a text between a separator, in order. -/
def splitAtChar (sep : Char) : List Char → List (List Char)
  | [] => [[]]
  | c :: cs =>
    match splitAtChar sep cs with
    | [] => [[c]]
    | p :: ps => if c = sep then [] :: p :: ps else (c :: p) :: ps

/-- An instruction from a lower-case mnemonic and its operands in the order `A`, `B`, `C` (R79); `ud.write v` is the
pseudo-command (R164). -/
def parseCommand (mnemonic : List Char) (ops : List (List Char)) : Option Instr :=
  match ops with
  | [] =>
    if mnemonic = "ud.peek".toList then some .udPeek
    else if mnemonic = "svf.low".toList then some .svfLow
    else if mnemonic = "svf.mid".toList then some .svfMid
    else if mnemonic = "svf.high".toList then some .svfHigh
    else none
  | [a] =>
    if mnemonic = "bq.proc".toList then (parseF32 a).map .bqProc
    else if mnemonic = "ud.rdadv".toList then (parseF32 a).map .udRdadv
    else if mnemonic = "ud.write".toList then (parseF32 a).map udWrite
    else if mnemonic = "aux.n2f".toList then (parseF32 a).map .auxN2f
    else if mnemonic = "aux.db2lin".toList then (parseF32 a).map .auxDb2lin
    else if mnemonic = "rdreg".toList then (parseRegister a).map .rdreg
    else none
  | [a, b, c] =>
    match parseF32 a, parseF32 b, parseF32 c with
    | some x, some y, some z =>
      if mnemonic = "bq.dsgn".toList then some (.bqDsgn x y z)
      else if mnemonic = "svf.step".toList then some (.svfStep x y z)
      else none
    | _, _, _ => none
  | _ => none

/-- What a line of text is. -/
inductive AsmLine where
  /-- nothing but blanks and a comment -/
  | empty
  /-- a command, as its word -/
  | word (w : CmdWord)
  /-- not a line of the syntax -/
  | bad
  deriving DecidableEq, Repr

/-- One line (R79): `#` starts a comment; the mnemonic is all in lower or all in upper case; operands are separated by commas. -/
def assembleChars (line : List Char) : AsmLine :=
  let text := trimBlanks (line.takeWhile (· ≠ '#'))
  if text = [] then .empty
  else
    let name := text.takeWhile (fun c => !isBlank c)
    let lower := name.map Char.toLower
    let rest := trimBlanks (text.drop name.length)
    let ops := if rest = [] then [] else (splitAtChar ',' rest).map trimBlanks
    if name = lower ∨ name = name.map Char.toUpper then
      match parseCommand lower ops with
      | some i => .word (encode i)
      | none => .bad
    else .bad

/-- One line of a command stream (R79). -/
def assembleLine (line : String) : AsmLine := assembleChars line.toList

/-- A whole command stream, one command per line (R79); `none` if a line is not of the syntax. -/
def assembleLines : List (List Char) → Option (List CmdWord)
  | [] => some []
  | l :: ls =>
    match assembleChars l with
    | .empty => assembleLines ls
    | .word w => (assembleLines ls).map (w :: ·)
    | .bad => none

/-- A command stream given as one text. -/
def assembleText (text : String) : Option (List CmdWord) := assembleLines (splitAtChar '\n' text.toList)

end Sys2Proof.Machine
end

