-- ==== Sys2Proof/Machine/Port.lean ====
section
/-! DEFINITION. The pin-level binding of the command port, one rising edge of `clk` at a time (spec 30_encoding.md R80, R81;
70_reset_and_hazards.md R230 to R232, R245; 10_state.md R35). It is a layer over the functional model: `step` does not use
it, since "No rule of the functional model reads clk, LAT or the handshake". -/

namespace Sys2Proof.Machine

/-- The input pins, as sampled at one rising edge (R80). -/
structure PinsIn where
  rst : Bool
  cmdValid : Bool
  cmd : CmdWord
  rspReady : Bool
  deriving DecidableEq, Repr

/-- The output pins (R80). `rsp` is the offered word while `rsp_valid = 1`, `none` while `rsp_valid = 0` (its level is then not
specified). -/
structure PinsOut where
  cmdReady : Bool
  rsp : Option RspWord
  deriving DecidableEq, Repr

/-- A command that was accepted and whose response is not yet delivered: the response, and the clock edges until `rsp_valid`
rises. -/
structure InFlight where
  rsp : RspWord
  wait : Nat
  deriving DecidableEq, Repr

/-- The block at its pins. -/
structure PortState where
  core : State
  /-- "at most one command is in flight" (R80) -/
  inFlight : Option InFlight
  /-- the word that the host offers and the block has not accepted (R81's duty to keep it stable) -/
  offered : Option CmdWord
  /-- MODEL'S OWN: how many commands were ever accepted, the index of the next command's free latency (log entry 12) -/
  count : Nat
  deriving DecidableEq, Repr

/-- Idle, nothing in flight, as after a reset (R230). -/
def PortState.idle (count : Nat) (s : State) : PortState := { core := s, inFlight := none, offered := none, count := count }

/-- The output pins for an input `rst` (R80): while `rst` is high `cmd_ready = 0` and `rsp_valid = 0` (R230); from acceptance to
delivery `cmd_ready = 0`. -/
def PortState.pins (p : PortState) (rst : Bool) : PinsOut :=
  if rst then { cmdReady := false, rsp := none }
  else
    match p.inFlight with
    | none => { cmdReady := true, rsp := none }
    | some f => { cmdReady := false, rsp := if f.wait = 0 then some f.rsp else none }

/-- Does the host keep its duty at this edge: a command it offered and that was not accepted is offered unchanged (R81)? -/
def PortState.offerKept (p : PortState) (i : PinsIn) : Bool :=
  match p.offered with
  | none => true
  | some w => i.cmdValid && i.cmd == w

/-- What the host offers and the block does not accept at this edge. -/
def PinsIn.stillOffered (i : PinsIn) : Option CmdWord := if i.cmdValid then some i.cmd else none

/-- A command accepted at this edge (R80): its register writes are done here, "no later than the edge at which rsp_valid
rises"; its response is offered `LAT >= 1` edges later. -/
def PortState.accept (p : PortState) (w : CmdWord) : Host.Outcome PortState Fault Refusal :=
  match runWord w p.core with
  | .next t =>
    .next { core := t
            inFlight := t.rsp.map fun r => { rsp := r, wait := Config.latency p.count + 1 }
            offered := none
            count := p.count + 1 }
  | .fault r => .fault r
  | .refused r => .refused r

/-- One rising edge of `clk` (R80, R81, R230, R232). -/
def portEdge (p : PortState) (i : PinsIn) : Host.Outcome PortState Fault Refusal :=
  if i.rst then .next (.idle p.count (p.core.applyReset p.core.inputs))
  else if p.offerKept i then
    match p.inFlight with
    | none => if i.cmdValid then p.accept i.cmd else .next { p with offered := none }
    | some f =>
      if f.wait = 0 then
        .next { p with inFlight := if i.rspReady then none else some f, offered := i.stillOffered }
      else .next { p with inFlight := some { f with wait := f.wait - 1 }, offered := i.stillOffered }
  else .refused .portProtocol

/-- The command accepted at this edge, if any: `cmd_valid = cmd_ready = 1` and `rst = 0` (R80). -/
def PortState.acceptedAt (p : PortState) (i : PinsIn) : List CmdWord :=
  if i.cmdValid && (p.pins i.rst).cmdReady then [i.cmd] else []

/-- The response delivered at this edge, if any: `rsp_valid = rsp_ready = 1` and `rst = 0` (R80). -/
def PortState.deliveredAt (p : PortState) (i : PinsIn) : List RspWord :=
  if i.rspReady then (p.pins i.rst).rsp.toList else []

/-- What a sequence of edges comes to: the block after it, the commands accepted and the responses delivered, in order. -/
structure PortTrace where
  final : PortState
  accepted : List CmdWord
  delivered : List RspWord

/-- A sequence of rising edges; `none` if the host breaks the protocol. -/
def portRun : PortState → List PinsIn → Option PortTrace
  | p, [] => some { final := p, accepted := [], delivered := [] }
  | p, i :: rest =>
    match portEdge p i with
    | .next q =>
      (portRun q rest).map fun t =>
        { final := t.final, accepted := p.acceptedAt i ++ t.accepted, delivered := p.deliveredAt i ++ t.delivered }
    | .fault _ => none
    | .refused _ => none

end Sys2Proof.Machine
end

