-- ==== Sys2Proof/Machine/Properties.lean ====
section
/-! DEFINITION. The named properties of the configuration functions (spec 40_numerics.md R117's table). They are assumptions a
claim may make of a function, "none of which any rule of the spec depends on": nothing in the machine uses them. -/

namespace Sys2Proof.Machine

/-- `value(a) <= value(b)` for patterns that are not NaN, infinities included. -/
abbrev valueLe (a b : F32) : Prop := isNaN a = false ∧ isNaN b = false ∧ unitsOf a ≤ unitsOf b

/-- `P_EXP2_ZERO`: `EXP2(+0) = EXP2(-0) = 1.0`. -/
abbrev PExp2Zero (exp2 : F32 → F32) : Prop := exp2 (zeroOf false) = one ∧ exp2 (zeroOf true) = one

/-- `P_EXP2_MONO`: for non-NaN `x <= y`, `EXP2(x) <= EXP2(y)`. -/
def PExp2Mono (exp2 : F32 → F32) : Prop := ∀ x y, valueLe x y → valueLe (exp2 x) (exp2 y)

/-- `P_EXP10_ZERO`: `EXP10(+0) = EXP10(-0) = 1.0`. -/
abbrev PExp10Zero (exp10 : F32 → F32) : Prop := exp10 (zeroOf false) = one ∧ exp10 (zeroOf true) = one

/-- `P_TRIG_RANGE`: for finite `x` the result is finite with magnitude at most `1.0`. -/
def PTrigRange (f : F32 → F32) : Prop :=
  ∀ x, isFinite x = true → isFinite (f x) = true ∧ magOf (f x) ≤ magOf one

/-- `p` is finite and is the real `r`, or one of the two `F32` values adjacent to it: no finite value lies between, or on `r`
itself. -/
def AdjacentTo (r : ℝ) (p : F32) : Prop :=
  isFinite p = true ∧ ∀ p', isFinite p' = true →
    ¬((valueOf p : ℝ) < (valueOf p' : ℝ) ∧ (valueOf p' : ℝ) ≤ r) ∧
    ¬(r ≤ (valueOf p' : ℝ) ∧ (valueOf p' : ℝ) < (valueOf p : ℝ))

/-- `P_TRIG_FAITHFUL`: for finite `x`, `SIN(x)` and `COS(x)` are adjacent to the real sine and cosine of `value(x)`. -/
def PTrigFaithful (sin cos : F32 → F32) : Prop :=
  ∀ x, isFinite x = true →
    AdjacentTo (Real.sin (valueOf x : ℝ)) (sin x) ∧ AdjacentTo (Real.cos (valueOf x : ℝ)) (cos x)

/-- Adjacent to a positive real `r`, "with overflow to `+inf` and underflow through the subnormals to `+0`". From `2^128 - 2^103`,
where R101 overflows, the result is `+inf`; up to `2^-150`, where R101 underflows to zero, it is `+0` (42_aux_math.md R152 (d):
"underflows to zero for `db` below about -903"). Between the largest finite number and the first bound the two neighbours are
that number and `+inf`. DEDUCED, log entry 17. -/
def AdjacentToPositive (r : ℝ) (p : F32) : Prop :=
  signOf p = false ∧ ((2 : ℝ) ^ 128 - 2 ^ 103 ≤ r → p = infOf false) ∧ (r ≤ 1 / 2 ^ 150 → p = zeroOf false) ∧
    (r < 2 ^ 128 - 2 ^ 103 → AdjacentTo r p ∨ p = infOf false ∧ (valueOf 0x7F7FFFFF#32 : ℝ) < r)

/-- `P_EXP_FAITHFUL`: the same for `EXP2`, `EXP10` against the real powers, which are positive. -/
def PExpFaithful (exp2 exp10 : F32 → F32) : Prop :=
  ∀ x, isFinite x = true →
    AdjacentToPositive ((2 : ℝ) ^ (valueOf x : ℝ)) (exp2 x) ∧ AdjacentToPositive ((10 : ℝ) ^ (valueOf x : ℝ)) (exp10 x)

/-- `P_SPECIAL` for `SIN` and `COS`. -/
def PSpecialTrig (sin cos : F32 → F32) : Prop :=
  (∀ x, isNaN x = true ∨ isInf x = true → isNaN (sin x) = true ∧ isNaN (cos x) = true) ∧
  ∀ s, sin (zeroOf s) = zeroOf s ∧ cos (zeroOf s) = one

/-- `P_SPECIAL` for `EXP2` and `EXP10`, one function at a time. -/
def PSpecialExp (f : F32 → F32) : Prop :=
  (∀ x, isNaN x = true → isNaN (f x) = true) ∧ f (infOf false) = infOf false ∧ f (infOf true) = zeroOf false

end Sys2Proof.Machine
end

