-- ==== Sys2Proof/Safety.lean ====
section
/-! DEFINITION. The terms claims are stated in: what a safe step is, the invariant of a run, legality and ownership as the
spec's tables give them, correct rounding, and equality up to a NaN's free pattern. -/

namespace Sys2Proof.Machine

/-- A step that completes. FILTCORE has no faults (60_exceptions.md R200), so the only steps that are not safe are those the
model gives no meaning. -/
def SafeStep (s : State) : Prop := ∃ t, step s = .next t

/-- A number of steps of the machine, and the responses they delivered, in order; `none` if one of them stops. -/
def runSteps : Nat → State → Option (State × List RspWord)
  | 0, s => some (s, [])
  | k + 1, s =>
    match step s with
    | .next t => (runSteps k t).map fun (u, rs) => (u, t.rsp.toList ++ rs)
    | .fault _ => none
    | .refused _ => none

/-- The `status` field of a response word (30_encoding.md R76). -/
def rspStatus (r : RspWord) : BitVec 4 := r.extractLsb' 124 4
/-- The reserved field of a response word (R76). -/
def rspRsv (r : RspWord) : BitVec 28 := r.extractLsb' 96 28
/-- `D0` of a response word (R76). -/
def rspD0 (r : RspWord) : F32 := r.extractLsb' 64 32
/-- `D1` of a response word (R76). -/
def rspD1 (r : RspWord) : F32 := r.extractLsb' 32 32
/-- `D2` of a response word (R76). -/
def rspD2 (r : RspWord) : F32 := r.extractLsb' 0 32

/-- A word the block may put on the response channel: `OK` or `ERR_ILLEGAL`, `rsv` zero, and all data `+0` with `ERR_ILLEGAL`
(R75, R76). -/
abbrev ResponseFormed (r : RspWord) : Prop :=
  rspRsv r = 0 ∧ (rspStatus r = 0 ∨ rspStatus r = 1 ∧ rspD0 r = 0 ∧ rspD1 r = 0 ∧ rspD2 r = 0)

/-- The invariant of a run: `SVF.low` equals `SVF.z1` (44_svf.md R176: "both received low'"; both are `+0` after reset), and a
delivered response has the form R76 gives it. -/
abbrev State.Inv (s : State) : Prop := s.svf.low = s.svf.z1 ∧ ∀ r ∈ s.rsp, ResponseFormed r

/-- Legality of a word, clause by clause as R74 (a) to (d) has it, with R71's unused fields per opcode. -/
def LegalWord (w : CmdWord) : Prop :=
  (1 ≤ (opField w).toNat ∧ (opField w).toNat ≤ 11) ∧ rsvField w = 0 ∧
  ((opField w).toNat ∈ [3, 6, 7, 8] → fieldA w = 0) ∧
  ((opField w).toNat ∉ [2, 5] → fieldB w = 0 ∧ fieldC w = 0) ∧
  ((opField w).toNat = 11 → (fieldA w).toNat ≤ 14)

/-- R20's column "written by": may this command write this register? -/
def writes : Instr → RegName → Bool
  | .bqProc _, .bqX1 | .bqProc _, .bqX2 | .bqProc _, .bqY1 | .bqProc _, .bqY2 => true
  | .bqDsgn _ _ _, .bqB0 | .bqDsgn _ _ _, .bqB1 | .bqDsgn _ _ _, .bqB2 => true
  | .bqDsgn _ _ _, .bqA1 | .bqDsgn _ _ _, .bqA2 => true
  | .svfStep _ _ _, .svfZ1 | .svfStep _ _ _, .svfZ2 => true
  | .svfStep _ _ _, .svfLow | .svfStep _ _ _, .svfMid | .svfStep _ _ _, .svfHigh => true
  | .udRdadv _, .ud0V => true
  | _, _ => false

/-- Equal, or both NaN: equality up to the free sign and payload of a created NaN (40_numerics.md R113). -/
def sameUpToNaN (a b : F32) : Prop := a = b ∨ isNaN a = true ∧ isNaN b = true

/-- The SVF registers equal up to the pattern of NaNs. -/
def sameSvf (f g : Svf) : Prop :=
  sameUpToNaN f.z1 g.z1 ∧ sameUpToNaN f.z2 g.z2 ∧ sameUpToNaN f.low g.low ∧ sameUpToNaN f.mid g.mid ∧
    sameUpToNaN f.high g.high

/-- The history registers equal up to the pattern of NaNs. -/
def sameHistory (h k : History) : Prop :=
  sameUpToNaN h.x1 k.x1 ∧ sameUpToNaN h.x2 k.x2 ∧ sameUpToNaN h.y1 k.y1 ∧ sameUpToNaN h.y2 k.y2

/-- The coefficient registers equal up to the pattern of NaNs. -/
def sameCoefs (c d : Coefs) : Prop :=
  sameUpToNaN c.b0 d.b0 ∧ sameUpToNaN c.b1 d.b1 ∧ sameUpToNaN c.b2 d.b2 ∧ sameUpToNaN c.a1 d.a1 ∧ sameUpToNaN c.a2 d.a2

/-- `p` is the non-zero real `r` rounded to nearest, ties to even, with gradual underflow and overflow to infinity
(40_numerics.md R101 and the sentence after its pseudocode): from `2^128 - 2^103` in magnitude the infinity of `r`'s sign;
below it a finite pattern of `r`'s sign that no finite pattern is nearer to `r` than, and whose last bit is 0 if a pattern of
another value is as near. -/
def RoundsTo (r : Rat) (p : F32) : Prop :=
  if (2 : Rat) ^ 128 - 2 ^ 103 ≤ |r| then p = infOf (decide (r < 0))
  else isFinite p = true ∧ signOf p = decide (r < 0) ∧
    ∀ p', isFinite p' = true →
      |valueOf p - r| ≤ |valueOf p' - r| ∧
        (|valueOf p - r| = |valueOf p' - r| → valueOf p' ≠ valueOf p → p.getLsbD 0 = false)

/-- Is the word one that only the SVF and observers of it read and write: an `SVF.*` command? -/
def isSvfWord (w : CmdWord) : Bool :=
  match decode w with
  | .legal (.svfStep _ _ _) | .legal .svfLow | .legal .svfMid | .legal .svfHigh => true
  | _ => false

/-- Is the word a `BQ.*` command? -/
def isBiquadWord (w : CmdWord) : Bool :=
  match decode w with
  | .legal (.bqProc _) | .legal (.bqDsgn _ _ _) => true
  | _ => false

/-- Is the word a command on the free-standing unit-delay cell? -/
def isUnitDelayWord (w : CmdWord) : Bool :=
  match decode w with
  | .legal .udPeek | .legal (.udRdadv _) => true
  | _ => false

end Sys2Proof.Machine
end

