-- ==== Sys2Proof/Certificates/Slice0/Obligations.lean ====
section
/-! DEFINITION. The statements for the provers. They come from the numbered rules of spec/; none is about a program. -/

open Sys2Proof Sys2Proof.Machine

-- ======== Encoding (30_encoding.md) ========

/-- R70 to R73: no bit of an operand is dropped. -/
def Obligations.DecodeOfEncodeIsTheInstruction : Prop :=
  ∀ i : Instr, i.wf = true → decode (encode i) = .legal i

/-- R74: a word is legal exactly when (a) to (d) hold. -/
def Obligations.LegalExactlyWhenEveryCheckPasses : Prop :=
  ∀ w : CmdWord, (∃ i, decode w = .legal i) ↔ LegalWord w

/-- R70, R71, R78: each legal word is the one encoding of its command, and its command is well-formed. -/
def Obligations.LegalWordIsTheEncodingOfItsCommand : Prop :=
  ∀ (w : CmdWord) (i : Instr), decode w = .legal i → encode i = w ∧ i.wf = true

/-- R73: "a word w has the listed command's form when (w AND mask) = match (and, for RDREG, the index constraint of rule R74
holds)", for every row of its table. -/
def Obligations.OpcodeRowsSelectTheirCommands : Prop :=
  ∀ row ∈ opcodeRows, ∀ w : CmdWord,
    (w &&& row.mask = row.pattern ∧ (row.mnemonic = "RDREG" → (fieldA w).toNat ≤ 14)) ↔
      ∃ i, decode w = .legal i ∧ mnemonicOf i = row.mnemonic

/-- Words of 95_test_vectors.md V-ENC-1, written out there from R73's table, decode to the commands listed there. -/
def Obligations.WorkedWordsDecodeAsListed : Prop :=
  decode 0x10000000_3F800000_00000000_00000000#128 = .legal (.bqProc 0x3F800000) ∧
  decode 0x20000000_447A0000_3F3504F3_473B8000#128 = .legal (.bqDsgn 0x447A0000 0x3F3504F3 0x473B8000) ∧
  decode 0x40000000_3FC00000_00000000_00000000#128 = .legal (.udRdadv 0x3FC00000) ∧
  decode 0x50000000_3F800000_3F000000_3F333333#128 = .legal (.svfStep 0x3F800000 0x3F000000 0x3F333333) ∧
  decode 0x90000000_428A0000_00000000_00000000#128 = .legal (.auxN2f 0x428A0000) ∧
  decode 0xB0000000_0000000A_00000000_00000000#128 = .legal (.rdreg 10)

-- ======== The command stream, responses, illegal words, reset ========

/-- A step whose next host event is a legal command is `exec` of that command, the event taken off the stream and nothing
else added (R6, R57). -/
def Obligations.StepRunsTheDecodedCommand : Prop :=
  ∀ (s : State) (w : CmdWord) (rest : List HostEvent) (i : Instr),
    s.inputs = .command w :: rest → decode w = .legal i → step s = exec i { s with inputs := rest }

/-- `withFetchWord` places a word so that the very next step runs exactly it. The block fetches nothing: that the host's stream is
a list in State, with the placed word at its head, and how the word's bits are numbered, are the model's choice (log entries 4
and 10), no rule of the spec. -/
def Obligations.OfferedWordIsRunNext : Prop :=
  ∀ (s : State) (i : Instr), i.wf = true → step (s.withFetchWord 128 (encode i).toNat) = exec i s

/-- R75: an illegal word changes no register and is answered `ERR_ILLEGAL` with zero data, whatever the state; the only thing
of the state that differs afterwards is the delivered response. The word of the response is the one R75 prints. -/
def Obligations.IllegalWordOnlyAnswersErrIllegal : Prop :=
  ∀ (s : State) (w : CmdWord) (rest : List HostEvent), s.inputs = .command w :: rest → ¬LegalWord w →
    step s = .next { s with inputs := rest, rsp := some 0x10000000_00000000_00000000_00000000#128 }

/-- R76, R200, R204: every command word is answered by exactly one response, whose status is `OK` for a legal word and
`ERR_ILLEGAL` for an illegal one, for any operands and any state; its reserved bits are zero. -/
def Obligations.EveryWordIsAnsweredByItsStatus : Prop :=
  ∀ (s : State) (w : CmdWord), ∃ t r, runWord w s = .next t ∧ t.rsp = some r ∧ rspRsv r = 0 ∧
    (LegalWord w → rspStatus r = 0) ∧ (¬LegalWord w → rspStatus r = 1)

/-- R76: the fields of a response word. -/
def Obligations.ResponseWordHoldsItsFields : Prop :=
  ∀ (st : Status) (d0 d1 d2 : F32),
    rspStatus (respond st d0 d1 d2) = st.code ∧ rspRsv (respond st d0 d1 d2) = 0 ∧ rspD0 (respond st d0 d1 d2) = d0 ∧
    rspD1 (respond st d0 d1 d2) = d1 ∧ rspD2 (respond st d0 d1 d2) = d2

/-- R27: after reset registers 0 to 3 and 9 to 14 hold `+0` and registers 4 to 8 hold `COEF_RESET`, which is open. That it is
indexed by a draw index, and that `State.reset` has index 0, is the model's choice (log entries 1 and 3). -/
def Obligations.ResetLeavesZerosAndOpenCoefficients : Prop :=
  (∀ k ∈ [0, 1, 2, 3, 9, 10, 11, 12, 13, 14], State.reset.readIndex k = some 0x00000000#32) ∧
  ∀ k : Fin 5, State.reset.readIndex (4 + k.val) = some (Config.coefReset 0 k)

/-- R230, R232 in the command stream: a reset, with or without a command in flight, gives the reset state whatever the state
was, with a new draw of `COEF_RESET` and no response; the rest of the stream follows. The draw index is the model's own (log
entries 1 and 3). -/
def Obligations.ResetEventGivesTheResetState : Prop :=
  ∀ (s : State) (w : CmdWord) (rest : List HostEvent) (e : HostEvent), e = .reset ∨ e = .resetInFlight w →
    s.inputs = e :: rest →
    ∃ t, step s = .next t ∧ t.rsp = none ∧ t.inputs = rest ∧ t.draws = s.draws + 1 ∧
      (∀ k ∈ [0, 1, 2, 3, 9, 10, 11, 12, 13, 14], t.readIndex k = some 0x00000000#32) ∧
      ∀ k : Fin 5, t.readIndex (4 + k.val) = some (Config.coefReset s.draws k)

/-- R81, R215: while no command is accepted the registers keep their values and no response is delivered. That an empty stream
is an idle host is the model's choice (log entry 5). -/
def Obligations.IdleStepKeepsEveryRegister : Prop :=
  ∀ (s : State) (rest : List HostEvent), s.inputs = [] ∧ rest = [] ∨ s.inputs = .idle :: rest →
    step s = .next { s with inputs := rest, rsp := none }

/-- R6, R200: a step completes from every state, unless the host's next event is the removal of power (log entry 8). -/
def Obligations.OnlyPowerLossStopsAStep : Prop :=
  ∀ s : State, SafeStep s ↔ s.inputs.head? ≠ some .powerLoss

/-- R57 (a): the state and the responses after a sequence of commands are the fold over the sequence, in order: a sequence
in two parts is the second part run from where the first leaves the machine; and no sequence of words stops it. The fold is
what the machine's own steps do: with the words first in the host's stream, whatever follows them, as many steps end in the
same state with the same responses (that the stream is a list in State is the model's choice, log entry 4). -/
def Obligations.CommandSequencesComposeInOrder : Prop :=
  (∀ (ws vs : List CmdWord) (s : State), ∃ t u rs qs,
    runWords ws s = some (t, rs) ∧ runWords vs t = some (u, qs) ∧ runWords (ws ++ vs) s = some (u, rs ++ qs) ∧
    rs.length = ws.length) ∧
  ∀ (ws : List CmdWord) (rest : List HostEvent) (s : State), ∃ t rs,
    runWords ws { s with inputs := rest } = some (t, rs) ∧
    runSteps ws.length { s with inputs := ws.map .command ++ rest } = some (t, rs) ∧ t.inputs = rest

-- ======== Invariants ========

/-- The invariant holds after reset, and no response is delivered (R230: while `rst` is high `rsp_valid = 0`). -/
def Obligations.ResetMeetsTheInvariant : Prop := State.reset.Inv ∧ State.reset.rsp = none

/-- R176, R76: every step keeps `SVF.low = SVF.z1` and the form of the delivered response. -/
def Obligations.StepKeepsLowEqualToZ1 : Prop :=
  ∀ s t : State, s.Inv → step s = .next t → t.Inv

/-- R113, R131 (c): once `BQ.y1` is a NaN, only a reset removes it: every other step leaves a NaN there, and every later
`y0` is a NaN. -/
def Obligations.BiquadNaNOutputPersists : Prop :=
  ∀ s t : State, isNaN s.bq.hist.y1 = true → step s = .next t →
    (∀ e ∈ s.inputs.head?, e ≠ .reset ∧ ∀ w, e ≠ .resetInFlight w) → isNaN t.bq.hist.y1 = true

/-- R175: once `SVF.z1` or `SVF.z2` is a NaN, every later `low'`, `high'` and `band` is a NaN, and only a reset clears it. -/
def Obligations.SvfNaNPersists : Prop :=
  (∀ (s : State) (input wct q : F32), isNaN s.svf.z1 = true ∨ isNaN s.svf.z2 = true →
    ∃ t, exec (.svfStep input wct q) s = .next t ∧ isNaN t.svf.low = true ∧ isNaN t.svf.high = true ∧
      isNaN t.svf.z1 = true ∧ isNaN t.svf.z2 = true) ∧
  ∀ s t : State, isNaN s.svf.z1 = true ∨ isNaN s.svf.z2 = true → step s = .next t →
    (∀ e ∈ s.inputs.head?, e ≠ .reset ∧ ∀ w, e ≠ .resetInFlight w) → isNaN t.svf.z1 = true ∨ isNaN t.svf.z2 = true

/-- R25, R20's column "written by": a command leaves every register that it does not write as it was, all 32 bits; the host's
stream is not changed and the draw index never goes back. An illegal word changes no register at all and draws nothing. The
draw index and the stream as a list in State are the model's own (log entries 3 and 4): those clauses rest on no rule. -/
def Obligations.CommandsWriteOnlyTheirOwnRegisters : Prop :=
  (∀ (i : Instr) (s t : State), exec i s = .next t →
    (∀ r, writes i r = false → t.read r = s.read r) ∧ t.inputs = s.inputs ∧ s.draws ≤ t.draws) ∧
  ∀ (w : CmdWord) (s t : State), ¬LegalWord w → runWord w s = .next t →
    (∀ r, t.read r = s.read r) ∧ t.inputs = s.inputs ∧ t.draws = s.draws

-- ======== The biquad (41_biquad.md) ========

/-- R131: BQ.PROC completes from every state with every operand; `y0` is the left-to-right sum of the five rounded products,
the history shifts by the values before the command, and nothing else changes. The numbers added to `s.draws` name the free
NaN of each operation (R113); that numbering is the model's choice (log entry 3). -/
def Obligations.BqProcComputesOneSample : Prop :=
  ∀ (s : State) (x0 : F32),
    let n := s.draws
    let t1 := fmul (nanDraw n) s.bq.coef.b0 x0
    let t2 := fmul (nanDraw (n + 1)) s.bq.coef.b1 s.bq.hist.x1
    let t3 := fmul (nanDraw (n + 2)) s.bq.coef.b2 s.bq.hist.x2
    let t4 := fmul (nanDraw (n + 3)) s.bq.coef.a1 s.bq.hist.y1
    let t5 := fmul (nanDraw (n + 4)) s.bq.coef.a2 s.bq.hist.y2
    let y0 := fsub (nanDraw (n + 8))
      (fsub (nanDraw (n + 7)) (fadd (nanDraw (n + 6)) (fadd (nanDraw (n + 5)) t1 t2) t3) t4) t5
    decode (packCmd 0x1 x0 0 0) = .legal (.bqProc x0) ∧ exec (.bqProc x0) s = .next { s with
      bq := { coef := s.bq.coef
              hist := { x1 := x0, x2 := s.bq.hist.x1, y1 := y0, y2 := s.bq.hist.y1 } }
      rsp := some (respond .ok y0 0 0)
      draws := n + 9 }

/-- R131 (b): from the zero history with finite coefficients, `BQ.PROC +0` gives a zero, and it is `-0` exactly when `b0`,
`b1`, `b2` have sign 1 and `a1`, `a2` have sign 0. -/
def Obligations.BqZeroInputGivesAZeroOfKnownSign : Prop :=
  ∀ (s : State), s.bq.hist = { x1 := 0, x2 := 0, y1 := 0, y2 := 0 } →
    isFinite s.bq.coef.b0 = true → isFinite s.bq.coef.b1 = true → isFinite s.bq.coef.b2 = true →
    isFinite s.bq.coef.a1 = true → isFinite s.bq.coef.a2 = true →
    ∃ t, exec (.bqProc 0x00000000) s = .next t ∧
      t.bq.hist.y1 = if signOf s.bq.coef.b0 && signOf s.bq.coef.b1 && signOf s.bq.coef.b2 && !signOf s.bq.coef.a1 &&
          !signOf s.bq.coef.a2 then 0x80000000#32 else 0x00000000#32

/-- R131 (c), (d): a NaN in `x0`, in a coefficient or in a history register makes `y0` a NaN, and `y0` is answered and
stored. -/
def Obligations.BqNaNReachesTheOutput : Prop :=
  ∀ (s : State) (x0 : F32),
    isNaN x0 = true ∨ (∃ r, isNaN (s.read r) = true ∧
      r ∈ [.bqX1, .bqX2, .bqY1, .bqY2, .bqB0, .bqB1, .bqB2, .bqA1, .bqA2]) →
    ∃ t, exec (.bqProc x0) s = .next t ∧ isNaN t.bq.hist.y1 = true ∧ t.rsp = some (respond .ok t.bq.hist.y1 0 0)

/-- R133: `y0` and the new history are a function of the nine `BQ.*` registers and `x0` alone, bit for bit, as long as no NaN
is created; a created NaN is a NaN on every run. So two states with the same `BQ.*` registers, and any other registers and
draws, go to the same history up to the pattern of NaNs. -/
def Obligations.BqProcDependsOnBiquadAlone : Prop :=
  ∀ (s s' : State) (x0 : F32), s.bq = s'.bq → ∃ t t',
    exec (.bqProc x0) s = .next t ∧ exec (.bqProc x0) s' = .next t' ∧ t.bq.coef = t'.bq.coef ∧
    sameHistory t.bq.hist t'.bq.hist ∧
    (isNaN t.bq.hist.y1 = false → t.bq.hist = t'.bq.hist ∧ t.rsp = t'.rsp)

/-- R134: BQ.DSGN completes from every state with every operands; the five coefficients are the normalized design, in the
pseudocode's order of operations, and nothing else changes. The draw indices are the model's choice (log entry 3). -/
def Obligations.BqDsgnStoresTheNormalizedDesign : Prop :=
  ∀ (s : State) (f0 q sampleRate : F32),
    let d := fun k => nanDraw (s.draws + k)
    let w0 := fdiv (d 1) (fmul (d 0) 0x40C90FDB#32 f0) sampleRate
    let sw := applyConfig Config.sin (d 2) w0
    let cw := applyConfig Config.cos (d 3) w0
    let alpha := fdiv (d 5) sw (fmul (d 4) 0x40000000#32 q)
    let t := fsub (d 6) 0x3F800000#32 cw
    let b0u := fdiv (d 7) t 0x40000000#32
    let a0 := fadd (d 8) 0x3F800000#32 alpha
    let a1u := fmul (d 9) 0xC0000000#32 cw
    let a2u := fsub (d 10) 0x3F800000#32 alpha
    decode (packCmd 0x2 f0 q sampleRate) = .legal (.bqDsgn f0 q sampleRate) ∧
    exec (.bqDsgn f0 q sampleRate) s = .next { s with
      bq := { hist := s.bq.hist
              coef := { b0 := fdiv (d 11) b0u a0, b1 := fdiv (d 12) t a0, b2 := fdiv (d 13) b0u a0,
                        a1 := fdiv (d 14) a1u a0, a2 := fdiv (d 15) a2u a0 } }
      rsp := some (respond .ok 0 0 0)
      draws := s.draws + 16 }

/-- R134: "BQ.b0 and BQ.b2 receive identical bit patterns (when not NaN)", and they are NaN together. -/
def Obligations.DesignedB0EqualsB2 : Prop :=
  ∀ (s : State) (f0 q sampleRate : F32), ∃ t, exec (.bqDsgn f0 q sampleRate) s = .next t ∧
    sameUpToNaN t.bq.coef.b0 t.bq.coef.b2

/-- R135 (a), R201, for every `SIN` and `COS`: with `Q = +0` or `Q = -0` the design completes with `OK` and leaves a NaN in
`BQ.a2`; and from such a state every BQ.PROC answers a NaN. -/
def Obligations.ZeroQPoisonsTheFilter : Prop :=
  (∀ (s : State) (f0 q sampleRate : F32), isZero q = true → ∃ t,
    exec (.bqDsgn f0 q sampleRate) s = .next t ∧ isNaN t.bq.coef.a2 = true ∧ t.rsp = some (respond .ok 0 0 0)) ∧
  ∀ (s : State) (x0 : F32), isNaN s.bq.coef.a2 = true → ∃ t y0,
    exec (.bqProc x0) s = .next t ∧ t.rsp = some (respond .ok y0 0 0) ∧ isNaN y0 = true

/-- R135 (a): with `Q` a zero, `sw` positive and finite and `cw` of magnitude at most 1, the stored `b0`, `b1`, `b2` are zeros
with the sign of `t` and `a1` is a zero with the sign of `a1u`, each flipped when `Q` is `-0` (`a0 = -inf`); `a2` is a NaN. -/
def Obligations.ZeroQDesignStoresZerosAndANaN : Prop :=
  ∀ (n : Nat) (sw cw q : F32), isZero q = true → isFinite sw = true → isZero sw = false → signOf sw = false →
    isFinite cw = true → magOf cw ≤ magOf one →
    let c := normalizedCoefs n sw cw q
    let st := signOf (fsub 0 one cw) ^^ signOf q
    c.b0 = zeroOf st ∧ c.b1 = zeroOf st ∧ c.b2 = zeroOf st ∧ c.a1 = zeroOf (signOf (fmul 0 minusTwo cw) ^^ signOf q) ∧
      isNaN c.a2 = true

/-- R135 (h): any NaN operand makes all five coefficients NaN, for `SIN` and `COS` with the named property `P_SPECIAL` (a NaN
`Q` does so for every `SIN` and `COS`). -/
def Obligations.NaNOperandMakesEveryCoefficientNaN : Prop :=
  ∀ (sin cos : F32 → F32) (n : Nat) (f0 q sampleRate : F32),
    isNaN q = true ∨ PSpecialTrig sin cos ∧ (isNaN f0 = true ∨ isNaN sampleRate = true) →
    let c := designLowpass sin cos n f0 q sampleRate
    isNaN c.b0 = true ∧ isNaN c.b1 = true ∧ isNaN c.b2 = true ∧ isNaN c.a1 = true ∧ isNaN c.a2 = true

-- ======== Auxiliary math (42_aux_math.md) ========

/-- R151: AUX.N2F completes from every state with every operand, answers the frequency and changes no register. The draw
indices are the model's choice (log entry 3). -/
def Obligations.AuxN2fAnswersTheFrequency : Prop :=
  ∀ (s : State) (note : F32),
    let d := fun k => nanDraw (s.draws + k)
    let e := fdiv (d 1) (fsub (d 0) note 0x428A0000#32) 0x41400000#32
    let f := fmul (d 3) 0x43DC0000#32 (applyConfig Config.exp2 (d 2) e)
    decode (packCmd 0x9 note 0 0) = .legal (.auxN2f note) ∧
    exec (.auxN2f note) s = .next { s with rsp := some (respond .ok f 0 0), draws := s.draws + 4 }

/-- R152: AUX.DB2LIN completes from every state with every operand, answers the gain and changes no register. The draw indices
are the model's choice (log entry 3). -/
def Obligations.AuxDb2linAnswersTheGain : Prop :=
  ∀ (s : State) (db : F32),
    let d := fun k => nanDraw (s.draws + k)
    let g := applyConfig Config.exp10 (d 1) (fdiv (d 0) db 0x41A00000#32)
    decode (packCmd 0xA db 0 0) = .legal (.auxDb2lin db) ∧
    exec (.auxDb2lin db) s = .next { s with rsp := some (respond .ok g 0 0), draws := s.draws + 2 }

/-- R151 (a): under `P_EXP2_ZERO` note 69.0 gives 440.0 exactly. R152 (a): under `P_EXP10_ZERO` 0 decibels give 1.0. -/
def Obligations.ReferenceNoteAndZeroDecibels : Prop :=
  (∀ (exp2 : F32 → F32) (n : Nat), PExp2Zero exp2 → noteToFrequency exp2 n 0x428A0000#32 = 0x43DC0000#32) ∧
  ∀ (exp10 : F32 → F32) (n : Nat) (s : Bool), PExp10Zero exp10 → decibelsToLinear exp10 n (zeroOf s) = 0x3F800000#32

/-- R151 (b): note-to-frequency is (weakly) increasing under `P_EXP2_MONO`. -/
def Obligations.NoteToFrequencyIsMonotone : Prop :=
  ∀ (exp2 : F32 → F32), PExp2Mono exp2 → ∀ (n n' : Nat) (x y : F32), valueLe x y →
    valueLe (noteToFrequency exp2 n x) (noteToFrequency exp2 n' y)

-- ======== The unit-delay cell (43_unit_delay.md) ========

/-- R162: UD.PEEK answers the stored value bit for bit, from every state, and changes nothing. -/
def Obligations.UdPeekAnswersTheStoredValue : Prop :=
  ∀ s : State, decode (packCmd 0x3 0 0 0) = .legal .udPeek ∧
    exec .udPeek s = .next { s with rsp := some (respond .ok s.ud0.v 0 0) }

/-- R163: UD.RDADV answers the value from before its store and stores its operand bit for bit; nothing else changes. -/
def Obligations.UdRdadvReadsThenStores : Prop :=
  ∀ (s : State) (newValue : F32), decode (packCmd 0x4 newValue 0 0) = .legal (.udRdadv newValue) ∧
    exec (.udRdadv newValue) s = .next { s with ud0 := { v := newValue }, rsp := some (respond .ok s.ud0.v 0 0) }

/-- R163 (d): a sequence `UD.RDADV v1; ...; UD.RDADV vn` answers `r, v1, ..., v(n-1)` where `r` is the content before it: the
cell delays the operand stream by exactly one command. -/
def Obligations.UnitDelayDelaysByOneCommand : Prop :=
  ∀ (s : State) (vs : List F32), ∃ t,
    runWords (vs.map fun v => encode (.udRdadv v)) s =
      some (t, ((s.ud0.v :: vs).take vs.length).map fun v => respond .ok v 0 0) ∧
    t.ud0.v = (s.ud0.v :: vs).getLast (List.cons_ne_nil _ _)

-- ======== The state-variable filter (44_svf.md) ========

/-- R171, R173, R174: SVF.STEP completes from every state with every operands; every use of `z1`, `z2` is the value before the
step, the resonance term is added, the two cells and three outputs are written together and nothing else changes. The
draw indices are the model's choice (log entry 3). -/
def Obligations.SvfStepAdvancesTheFilter : Prop :=
  ∀ (s : State) (input wct q : F32),
    let d := fun k => nanDraw (s.draws + k)
    let fb := fneg (d 1) (fmul (d 0) q s.svf.z2)
    let low := fadd (d 3) (fmul (d 2) wct s.svf.z2) s.svf.z1
    let high := fadd (d 5) (fsub (d 4) input low) fb
    let band := fadd (d 7) (fmul (d 6) wct high) s.svf.z2
    decode (packCmd 0x5 input wct q) = .legal (.svfStep input wct q) ∧ exec (.svfStep input wct q) s = .next { s with
      svf := { z1 := low, z2 := band, low := low, mid := s.svf.z2, high := high }
      rsp := some (respond .ok low s.svf.z2 high)
      draws := s.draws + 8 }

/-- R176, R177, R178: the accessors complete from every state, answer the last outputs bit for bit and change nothing. -/
def Obligations.SvfAccessorsAnswerTheLastOutputs : Prop :=
  ∀ s : State,
    (decode (packCmd 0x6 0 0 0) = .legal .svfLow ∧
      exec .svfLow s = .next { s with rsp := some (respond .ok s.svf.low 0 0) }) ∧
    (decode (packCmd 0x7 0 0 0) = .legal .svfMid ∧
      exec .svfMid s = .next { s with rsp := some (respond .ok s.svf.mid 0 0) }) ∧
    (decode (packCmd 0x8 0 0 0) = .legal .svfHigh ∧
      exec .svfHigh s = .next { s with rsp := some (respond .ok s.svf.high 0 0) })

/-- R172: the `mid` that a step answers is the `band` that the step before it computed, whatever commands other than SVF.STEP
came between. -/
def Obligations.MidIsTheBandOfTheStepBefore : Prop :=
  ∀ (s t u v : State) (in1 wct1 q1 in2 wct2 q2 : F32) (between : List Instr) (rs : List RspWord),
    (∀ i ∈ between, i.wf = true ∧ ∀ a b c, i ≠ .svfStep a b c) →
    exec (.svfStep in1 wct1 q1) s = .next t → runWords (between.map encode) t = some (u, rs) →
    exec (.svfStep in2 wct2 q2) u = .next v → v.svf.mid = t.svf.z2 ∧ ∀ r ∈ v.rsp, rspD1 r = t.svf.z2

/-- R179: with `z1 = z2 = +0`, any sequence of steps with `in = +0`, finite `wct > 0` and finite `q >= 0` answers three zeros
each time and leaves all five SVF registers `+0`, for ever. -/
def Obligations.SvfZeroInputIsAFixedPoint : Prop :=
  ∀ (ops : List (F32 × F32)) (s : State),
    (∀ o ∈ ops, (isFinite o.1 = true ∧ isZero o.1 = false ∧ signOf o.1 = false) ∧
      (isFinite o.2 = true ∧ (signOf o.2 = false ∨ isZero o.2 = true))) →
    s.svf = { z1 := 0, z2 := 0, low := 0, mid := 0, high := 0 } →
    ∃ t, runWords (ops.map fun o => encode (.svfStep 0x00000000 o.1 o.2)) s =
        some (t, ops.map fun _ => 0x00000000_00000000_00000000_00000000#128) ∧
      t.svf = { z1 := 0, z2 := 0, low := 0, mid := 0, high := 0 }

/-- R25, R57, R165 and the independence of program P4: in any stream of command words, legal or not, the SVF registers at the
end are, up to the pattern of NaNs, what the stream's `SVF.*` commands alone would leave; `UD0.v` is bit for bit what its
`UD.*` commands alone would leave; and the history and coefficients are, up to the pattern of NaNs, what its `BQ.*` commands
alone would leave. For the biquad one thing must be said: where `w0` of a BQ.DSGN is a NaN, its pattern is a draw, and what
`SIN` and `COS` give for a NaN is open (R117), so either they give a NaN for every NaN, as the named property `P_SPECIAL` has
it, or no `w0` of the stream is a NaN. -/
def Obligations.InterleavedComponentsDoNotInterfere : Prop :=
  ∀ (ws : List CmdWord) (s : State), ∃ t u v b rs qs ps os,
    runWords ws s = some (t, rs) ∧ runWords (ws.filter isSvfWord) s = some (u, qs) ∧
    runWords (ws.filter isUnitDelayWord) s = some (v, ps) ∧ runWords (ws.filter isBiquadWord) s = some (b, os) ∧
    sameSvf t.svf u.svf ∧ t.ud0 = v.ud0 ∧
    ((∀ x, isNaN x = true → isNaN (Config.sin x) = true ∧ isNaN (Config.cos x) = true) ∨
        (∀ f0 q sampleRate, encode (.bqDsgn f0 q sampleRate) ∈ ws → isNaN (angularCutoff 0 f0 sampleRate) = false) →
      sameHistory t.bq.hist b.bq.hist ∧ sameCoefs t.bq.coef b.bq.coef)

-- ======== Observation (45_debug_read.md) ========

/-- R190: RDREG of an index up to 14 answers the register of that number in R20's table bit for bit; an index above 14 is
answered `ERR_ILLEGAL`; neither changes any register. -/
def Obligations.RdregAnswersTheNumberedRegister : Prop :=
  (∀ (s : State) (r : RegName),
    exec (.rdreg (BitVec.ofNat 32 r.number)) s = .next { s with rsp := some (respond .ok (s.read r) 0 0) }) ∧
  (∀ (s : State) (index : BitVec 32), index.toNat ≤ 14 → ∃ r, RegName.ofNumber index.toNat = some r ∧
    r.number = index.toNat ∧ decode (packCmd 0xB index 0 0) = .legal (.rdreg index) ∧
    exec (.rdreg index) s = .next { s with rsp := some (respond .ok (s.read r) 0 0) }) ∧
  ∀ (s : State) (index : BitVec 32), 14 < index.toNat → (∃ e, decode (packCmd 0xB index 0 0) = .illegal e) ∧
    exec (.rdreg index) s = .next { s with rsp := some (respond .errIllegal 0 0 0) }

-- ======== Numerics (40_numerics.md) ========

/-- R101: `round32` rounds every real of the form it is given to the nearest binary32 number, ties to even, with gradual
underflow and overflow to infinity; an exact zero takes the sign `zs`. -/
def Obligations.Round32IsNearestTiesToEven : Prop :=
  ∀ (s : Bool) (num den : Nat) (zs : Bool), 0 < den →
    (num = 0 → round32 s num den zs = zeroOf zs) ∧
    (0 < num → RoundsTo ((if s then -1 else 1) * ((num : Rat) / (den : Rat)) / 2 ^ 149) (round32 s num den zs))

/-- R104: `fadd`, clause by clause; the last is the exact sum rounded once. -/
def Obligations.FaddIsTheRoundedSum : Prop :=
  ∀ nan a b : F32,
    (isNaN a = true ∨ isNaN b = true → fadd nan a b = nan) ∧
    (∀ s, a = infOf s → b = infOf (!s) → fadd nan a b = nan) ∧
    (isInf a = true → isNaN b = false → b ≠ infOf (!signOf a) → fadd nan a b = a) ∧
    (isInf b = true → isFinite a = true → fadd nan a b = b) ∧
    (∀ s s', fadd nan (zeroOf s) (zeroOf s') = zeroOf (s && s')) ∧
    (isFinite a = true → isFinite b = true → (isZero a = false ∨ isZero b = false) →
      (valueOf a + valueOf b = 0 → fadd nan a b = 0x00000000#32) ∧
      (valueOf a + valueOf b ≠ 0 → RoundsTo (valueOf a + valueOf b) (fadd nan a b))) ∧
    fadd nan a b = fadd nan b a

/-- R104's spelled-out cases and R106's: `fadd(x, -x) = +0` and `fadd(x, ±0) = x` for finite non-zero `x`, and multiplication
by `1.0` returns the other operand unchanged if it is not a NaN. -/
def Obligations.AdditionAndMultiplicationIdentities : Prop :=
  ∀ nan x : F32,
    (isFinite x = true → isZero x = false →
      fadd nan x (fneg nan x) = 0x00000000#32 ∧ ∀ s, fadd nan x (zeroOf s) = x) ∧
    (isNaN x = false → fmul nan x one = x ∧ fmul nan one x = x)

/-- R105. -/
def Obligations.FsubIsAdditionOfTheNegation : Prop :=
  ∀ nan a b : F32,
    (isNaN b = false → fsub nan a b = fadd nan a (fneg nan b)) ∧
    (isNaN a = true ∨ isNaN b = true → fsub nan a b = nan) ∧
    (isFinite a = true → fsub nan a a = 0x00000000#32) ∧
    fsub nan 0x80000000#32 0x00000000#32 = 0x80000000#32 ∧ fsub nan 0x00000000#32 0x80000000#32 = 0x00000000#32 ∧
    fsub nan (infOf false) (infOf false) = nan ∧
    (isFinite a = true → isFinite b = true → valueOf a ≠ valueOf b →
      RoundsTo (valueOf a - valueOf b) (fsub nan a b))

/-- R106: `fmul`, clause by clause; the last is the exact product rounded once. -/
def Obligations.FmulIsTheRoundedProduct : Prop :=
  ∀ nan a b : F32,
    let s := signOf a ^^ signOf b
    (isNaN a = true ∨ isNaN b = true → fmul nan a b = nan) ∧
    (isInf a = true ∧ isZero b = true ∨ isZero a = true ∧ isInf b = true → fmul nan a b = nan) ∧
    (isInf a = true ∧ isNaN b = false ∧ isZero b = false ∨ isNaN a = false ∧ isZero a = false ∧ isInf b = true →
      fmul nan a b = infOf s) ∧
    (isZero a = true ∧ isFinite b = true ∨ isFinite a = true ∧ isZero b = true → fmul nan a b = zeroOf s) ∧
    (isFinite a = true → isFinite b = true → isZero a = false → isZero b = false →
      RoundsTo (valueOf a * valueOf b) (fmul nan a b))

/-- R107: `fdiv`, clause by clause; the last is the exact quotient rounded once. -/
def Obligations.FdivIsTheRoundedQuotient : Prop :=
  ∀ nan a b : F32,
    let s := signOf a ^^ signOf b
    (isNaN a = true ∨ isNaN b = true → fdiv nan a b = nan) ∧
    (isInf a = true → isInf b = true → fdiv nan a b = nan) ∧
    (isZero a = true → isZero b = true → fdiv nan a b = nan) ∧
    (isInf a = true → isFinite b = true → fdiv nan a b = infOf s) ∧
    (isFinite a = true → isInf b = true → fdiv nan a b = zeroOf s) ∧
    (isFinite a = true → isZero a = false → isZero b = true → fdiv nan a b = infOf s) ∧
    (isZero a = true → isFinite b = true → isZero b = false → fdiv nan a b = zeroOf s) ∧
    (isFinite a = true → isFinite b = true → isZero a = false → isZero b = false →
      RoundsTo (valueOf a / valueOf b) (fdiv nan a b))

/-- R108: `fneg` inverts bit 31 and leaves the others, of a NaN it is a NaN; and `fmul(fneg(a), b) = fneg(fmul(a, b))` bit for
bit where the product is not a NaN. -/
def Obligations.FnegInvertsTheSign : Prop :=
  ∀ nan a b : F32, isNaN nan = true →
    (isNaN a = false → (fneg nan a).getLsbD 31 = !a.getLsbD 31 ∧ (∀ k < 31, (fneg nan a).getLsbD k = a.getLsbD k) ∧
      fneg nan (fneg nan a) = a) ∧
    (isNaN a = true → isNaN (fneg nan a) = true) ∧
    (isNaN a = false → isNaN b = false →
      sameUpToNaN (fmul nan (fneg nan a) b) (fneg nan (fmul nan a b)))

/-- R113: a created NaN is a NaN pattern at every draw index, and each of the five primitives of R13 with a NaN operand answers
a NaN. The draw index is the model's own (log entry 3). -/
def Obligations.NaNOperandsGiveNaNResults : Prop :=
  (∀ n, isNaN (nanDraw n) = true) ∧
  (∀ (n : Nat) (a : F32), isNaN a = true → isNaN (fneg (nanDraw n) a) = true) ∧
  ∀ (n : Nat) (a b : F32), isNaN a = true ∨ isNaN b = true →
    isNaN (fadd (nanDraw n) a b) = true ∧ isNaN (fsub (nanDraw n) a b) = true ∧
    isNaN (fmul (nanDraw n) a b) = true ∧ isNaN (fdiv (nanDraw n) a b) = true

/-- R116: the literals have the values the table gives, and `TWO_PI` is nearest to 2π among the finite patterns. -/
def Obligations.ConstantsHaveTheirValues : Prop :=
  valueOf one = 1 ∧ valueOf two = 2 ∧ valueOf minusTwo = -2 ∧ valueOf twelve = 12 ∧ valueOf twenty = 20 ∧
  valueOf sixtyNine = 69 ∧ valueOf fourForty = 440 ∧ valueOf twoPi = 13176795 / 2 ^ 21 ∧
  ∀ p, isFinite p = true → |(valueOf twoPi : ℝ) - 2 * Real.pi| ≤ |(valueOf p : ℝ) - 2 * Real.pi|

-- ======== The pins (30_encoding.md R80, R81; 70_reset_and_hazards.md) ========

/-- R80, last sentence: over any edges without a reset, the pins give the functional model: the commands accepted, folded by
`exec`, leave the registers and give, in order, the responses delivered, and the one in flight if there is one; a response in
flight at the start is delivered first. That the register writes happen at the acceptance edge is the model's choice (log
entry 12). -/
def Obligations.PinsGiveTheFunctionalModel : Prop :=
  ∀ (edges : List PinsIn) (p : PortState) (t : PortTrace), (∀ i ∈ edges, i.rst = false) → portRun p edges = some t →
    ∃ rs, runWords t.accepted p.core = some (t.final.core, rs) ∧
      (p.inFlight.map InFlight.rsp).toList ++ rs = t.delivered ++ (t.final.inFlight.map InFlight.rsp).toList

/-- R245, R80: an accepted command is answered. For a host with `rsp_ready` high and nothing else offered, its response is
delivered after `LAT` edges and one more, and the block is ready again with the same registers. For any host that keeps its
duties with `rst` low, whatever it offers meanwhile and whenever it raises `rsp_ready`: if `rsp_ready` is high at some edge once
`LAT` edges have passed, the first response delivered is this command's. `LAT` is open and counted by the model's own number of
accepted commands (log entry 12). -/
def Obligations.AcceptedCommandIsEventuallyAnswered : Prop :=
  (∀ (n : Nat) (s : State) (w : CmdWord), ∃ t r,
    runWord w s = .next t ∧ t.rsp = some r ∧
    portRun (.idle n s) (⟨false, true, w, true⟩ ::
        List.replicate (Config.latency n + 2) ⟨false, false, 0, true⟩) =
      some { final := .idle (n + 1) t, accepted := [w], delivered := [r] }) ∧
  ∀ (n : Nat) (s : State) (w : CmdWord) (ready : Bool) (edges : List PinsIn) (t : PortTrace),
    (∀ i ∈ edges, i.rst = false) → portRun (.idle n s) (⟨false, true, w, ready⟩ :: edges) = some t →
    (∃ k i, Config.latency n + 1 ≤ k ∧ edges[k]? = some i ∧ i.rspReady = true) →
    ∃ u r, runWord w s = .next u ∧ u.rsp = some r ∧ t.accepted.head? = some w ∧ t.delivered.head? = some r

/-- R80: while a response is in flight no command is accepted, and a response that is offered and not taken stays offered
unchanged, with the same registers, for as long as the host waits. -/
def Obligations.OfferedResponseIsStable : Prop :=
  ∀ (p : PortState) (i : PinsIn) (f : InFlight), p.inFlight = some f →
    (p.pins i.rst).cmdReady = false ∧ p.acceptedAt i = [] ∧
    (f.wait = 0 → i.rst = false → i.rspReady = false → p.offerKept i = true →
      (p.pins false).rsp = some f.rsp ∧
      ∃ q, portEdge p i = .next q ∧ q.core = p.core ∧ (q.pins false).rsp = some f.rsp)

/-- R230, R232 at the pins: an edge with `rst` high accepts and delivers nothing and leaves the reset state with nothing in
flight, whatever was in flight or offered before; a command in flight is never answered. That the host's duty to keep an offer
ends at that edge, so that the edge is no violation and nothing stays offered, is the model's choice (log entry 13); the draw
index and the count are its own (log entries 1, 3 and 12). -/
def Obligations.ResetAtThePinsAbandonsTheCommand : Prop :=
  ∀ (p : PortState) (i : PinsIn), i.rst = true →
    p.pins true = { cmdReady := false, rsp := none } ∧ p.acceptedAt i = [] ∧ p.deliveredAt i = [] ∧
    portEdge p i = .next (.idle p.count (State.afterReset p.core.draws p.core.inputs)) ∧
    (PortState.idle p.count (State.afterReset p.core.draws p.core.inputs)).pins false = { cmdReady := true, rsp := none }

-- ======== The text form (30_encoding.md R79) ========

/-- R79's examples, and its pseudo-command: the word of 95_test_vectors.md V-UD-2, and the same command as `ud.rdadv` for every
operand text. -/
def Obligations.TextExamplesAssemble : Prop :=
  assembleLine "bq.proc 1.0" = .word 0x10000000_3F800000_00000000_00000000#128 ∧
  assembleLine "svf.step 1.0, 0.5, 0.7" = .word 0x50000000_3F800000_3F000000_3F333333#128 ∧
  assembleLine "rdreg SVF.z2" = .word 0xB0000000_0000000A_00000000_00000000#128 ∧
  assembleLine "ud.write 3.0" = .word 0x40000000_40400000_00000000_00000000#128 ∧
  assembleLine "ud.rdadv 3.0" = .word 0x40000000_40400000_00000000_00000000#128 ∧
  ∀ ops, parseCommand "ud.write".toList ops = parseCommand "ud.rdadv".toList ops

-- ======== The named properties (40_numerics.md R117) ========

/-- The worked examples of R151 and R152, "which `P_EXP_FAITHFUL` implies", and R151 (e), R152 (d): overflow to `+inf` and
underflow to `+0`. The bounds of overflow and underflow are the model's reading (log entry 17). -/
def Obligations.FaithfulExponentialsGiveTheWorkedValues : Prop :=
  ∀ (exp2 exp10 : F32 → F32), PExpFaithful exp2 exp10 → ∀ n : Nat,
    noteToFrequency exp2 n 0x42A20000#32 = 0x445C0000#32 ∧ decibelsToLinear exp10 n 0x41A00000#32 = 0x41200000#32 ∧
    noteToFrequency exp2 n 0x44BCA000#32 = 0x7F800000#32 ∧ noteToFrequency exp2 n 0xC4E76000#32 = 0x00000000#32 ∧
    decibelsToLinear exp10 n 0x44430000#32 = 0x7F800000#32 ∧ decibelsToLinear exp10 n 0xC4660000#32 = 0x00000000#32
end

