-- ==== Sys2Proof/Laws/Decode.lean ====
section
/-! SUPPORT. The fields of an encoded word, and what each format's decoder answers. -/

namespace Sys2Proof

@[simp] theorem packCmd_op (op : BitVec 4) (a b c : BitVec 32) : opField (packCmd op a b c) = op := by
  apply BitVec.eq_of_getLsbD_eq
  intro k hk
  simp only [opField, packCmd, BitVec.getLsbD_extractLsb', BitVec.getLsbD_append]
  simp [hk, show ¬ 124 + k < 32 by omega, show ¬ 124 + k - 32 < 32 by omega, show ¬ 124 + k - 32 - 32 < 32 by omega,
    show ¬ 124 + k - 32 - 32 - 32 < 28 by omega, show 124 + k - 32 - 32 - 32 - 28 = k by omega]

@[simp] theorem packCmd_rsv (op : BitVec 4) (a b c : BitVec 32) : rsvField (packCmd op a b c) = 0 := by
  apply BitVec.eq_of_getLsbD_eq
  intro k hk
  simp only [rsvField, packCmd, BitVec.getLsbD_extractLsb', BitVec.getLsbD_append]
  simp [show ¬ 96 + k < 32 by omega, show ¬ 96 + k - 32 < 32 by omega,
    show ¬ 96 + k - 32 - 32 < 32 by omega, show 96 + k - 32 - 32 - 32 < 28 by omega]

@[simp] theorem packCmd_a (op : BitVec 4) (a b c : BitVec 32) : fieldA (packCmd op a b c) = a := by
  apply BitVec.eq_of_getLsbD_eq
  intro k hk
  simp only [fieldA, packCmd, BitVec.getLsbD_extractLsb', BitVec.getLsbD_append]
  simp [hk, show ¬ 64 + k < 32 by omega, show ¬ 64 + k - 32 < 32 by omega, show 64 + k - 32 - 32 = k by omega]

@[simp] theorem packCmd_b (op : BitVec 4) (a b c : BitVec 32) : fieldB (packCmd op a b c) = b := by
  apply BitVec.eq_of_getLsbD_eq
  intro k hk
  simp only [fieldB, packCmd, BitVec.getLsbD_extractLsb', BitVec.getLsbD_append]
  simp [hk, show ¬ 32 + k < 32 by omega]

@[simp] theorem packCmd_c (op : BitVec 4) (a b c : BitVec 32) : fieldC (packCmd op a b c) = c := by
  apply BitVec.eq_of_getLsbD_eq
  intro k hk
  simp only [fieldC, packCmd, BitVec.getLsbD_extractLsb', BitVec.getLsbD_append]
  simp [hk]

/-- A word is put together from its own fields when its reserved field is zero. -/
theorem packCmd_fields (w : CmdWord) (h : rsvField w = 0) : packCmd (opField w) (fieldA w) (fieldB w) (fieldC w) = w := by
  apply BitVec.eq_of_getLsbD_eq
  intro k hk
  have hz : ∀ j, j < 28 → w.getLsbD (96 + j) = false := by
    intro j hj
    have := congrArg (fun v => BitVec.getLsbD v j) h
    simpa [rsvField, hj] using this
  simp only [packCmd, opField, fieldA, fieldB, fieldC, BitVec.getLsbD_extractLsb', BitVec.getLsbD_append]
  by_cases h1 : k < 32
  · simp [h1]
  · by_cases h2 : k - 32 < 32
    · simp [h1, h2, show 32 + (k - 32) = k by omega]
    · by_cases h3 : k - 32 - 32 < 32
      · simp [h1, h2, h3, show 64 + (k - 32 - 32) = k by omega]
      · by_cases h4 : k - 32 - 32 - 32 < 28
        · simp only [h1, h2, h3, h4]
          have := hz (k - 96) (by omega)
          rw [show 96 + (k - 96) = k by omega] at this
          simp [this]
        · simp [h1, h2, h3, h4, show 124 + (k - 32 - 32 - 32 - 28) = k by omega,
            show k - 32 - 32 - 32 - 28 < 4 by omega]

theorem decodeF0_legal {w : CmdWord} {i j : Instr} :
    decodeF0 w i = .legal j ↔ (fieldA w = 0 ∧ fieldB w = 0 ∧ fieldC w = 0) ∧ i = j := by
  unfold decodeF0; split <;> simp_all

theorem decodeF1_legal {w : CmdWord} {i : F32 → Instr} {j : Instr} :
    decodeF1 w i = .legal j ↔ (fieldB w = 0 ∧ fieldC w = 0) ∧ i (fieldA w) = j := by
  unfold decodeF1; split <;> simp_all

theorem decodeF3_legal {w : CmdWord} {i : F32 → F32 → F32 → Instr} {j : Instr} :
    decodeF3 w i = .legal j ↔ i (fieldA w) (fieldB w) (fieldC w) = j := by
  simp [decodeF3]

theorem decodeFI_legal {w : CmdWord} {i : BitVec 32 → Instr} {j : Instr} :
    decodeFI w i = .legal j ↔ (fieldB w = 0 ∧ fieldC w = 0) ∧ (fieldA w).toNat ≤ 14 ∧ i (fieldA w) = j := by
  unfold decodeFI; split
  · split <;> simp_all
  · simp_all

theorem decode_legal {w : CmdWord} {j : Instr} : decode w = .legal j ↔ rsvField w = 0 ∧ decodeOp w = .legal j := by
  unfold decode; split <;> simp_all

end Sys2Proof
end

