-- ==== Sys2Proof/Laws/Numerics.lean ====
section
/-! SUPPORT. Small facts of the number format and of the primitives: what a packed pattern's fields are, that every created
NaN is a NaN, and each primitive's special cases. -/

namespace Sys2Proof.Machine

theorem fracOf_lt (p : F32) : fracOf p < 2 ^ 23 := (p.extractLsb' 0 23).isLt
theorem expOf_lt (p : F32) : expOf p < 256 := (p.extractLsb' 23 8).isLt

theorem packBits_toNat (s : Bool) (m : Nat) (hm : m < 2 ^ 31) :
    (packBits s m).toNat = (if s then 2 ^ 31 else 0) + m := by
  rw [packBits, BitVec.toNat_ofNat]
  cases s
  · simp; omega
  · simp; omega

theorem expOf_eq (p : F32) : expOf p = p.toNat / 2 ^ 23 % 256 := by
  simp [expOf, BitVec.extractLsb'_toNat, Nat.shiftRight_eq_div_pow]

theorem fracOf_eq (p : F32) : fracOf p = p.toNat % 2 ^ 23 := by
  simp [fracOf, BitVec.extractLsb'_toNat]

theorem signOf_eq (p : F32) : signOf p = decide (2 ^ 31 ≤ p.toNat) := by
  simp [signOf, BitVec.msb_eq_decide]

@[simp] theorem signOf_packBits (s : Bool) (m : Nat) (hm : m < 2 ^ 31) : signOf (packBits s m) = s := by
  rw [signOf_eq, packBits_toNat s m hm]; cases s
  · simp; omega
  · simp

@[simp] theorem expOf_packBits (s : Bool) (m : Nat) (hm : m < 2 ^ 31) : expOf (packBits s m) = m / 2 ^ 23 := by
  rw [expOf_eq, packBits_toNat s m hm]; cases s
  · simp; omega
  · simp; omega

@[simp] theorem fracOf_packBits (s : Bool) (m : Nat) (hm : m < 2 ^ 31) : fracOf (packBits s m) = m % 2 ^ 23 := by
  rw [fracOf_eq, packBits_toNat s m hm]; cases s
  · simp
  · simp; omega

@[simp] theorem isNaN_nanOf (s : Bool) (k : Fin 8388607) : isNaN (nanOf s k) = true := by
  have hk := k.isLt
  have hm : 255 * 2 ^ 23 + (k.val + 1) < 2 ^ 31 := by omega
  simp only [isNaN, nanOf, expOf_packBits _ _ hm, fracOf_packBits _ _ hm]
  simp
  omega

/-- A created NaN is a NaN (R113). -/
@[simp] theorem isNaN_nanDraw (n : Nat) : isNaN (nanDraw n) = true := isNaN_nanOf _ _

theorem fadd_of_nan (nan a b : F32) (h : isNaN a = true ∨ isNaN b = true) : fadd nan a b = nan := by
  rcases h with h | h <;> simp [fadd, h]

theorem fsub_of_nan (nan a b : F32) (h : isNaN a = true ∨ isNaN b = true) : fsub nan a b = nan := by
  rcases h with h | h <;> simp [fsub, h]

theorem fmul_of_nan (nan a b : F32) (h : isNaN a = true ∨ isNaN b = true) : fmul nan a b = nan := by
  rcases h with h | h <;> simp [fmul, h]

theorem fdiv_of_nan (nan a b : F32) (h : isNaN a = true ∨ isNaN b = true) : fdiv nan a b = nan := by
  rcases h with h | h <;> simp [fdiv, h]

theorem fneg_of_nan (nan a : F32) (h : isNaN a = true) : fneg nan a = nan := by simp [fneg, h]

theorem applyConfig_of_nan (f : F32 → F32) (nan a : F32) (h : isNaN (f a) = true) : applyConfig f nan a = nan := by
  simp [applyConfig, h]

/-- The zeros are the two patterns of R11. -/
theorem isZero_iff (p : F32) : isZero p = true ↔ p = zeroOf (signOf p) := by
  simp only [isZero, Bool.and_eq_true, beq_iff_eq, expOf_eq, fracOf_eq, signOf_eq, zeroOf]
  constructor
  · intro ⟨h1, h2⟩
    apply BitVec.eq_of_toNat_eq
    rw [packBits_toNat _ _ (by norm_num)]
    have := p.isLt
    simp only [decide_eq_true_eq]
    split <;> omega
  · intro h
    rw [h, packBits_toNat _ _ (by norm_num)]
    split <;> simp

/-- The infinities are the two patterns of R100. -/
theorem isInf_iff (p : F32) : isInf p = true ↔ p = infOf (signOf p) := by
  simp only [isInf, Bool.and_eq_true, beq_iff_eq, expOf_eq, fracOf_eq, signOf_eq, infOf]
  constructor
  · intro ⟨h1, h2⟩
    apply BitVec.eq_of_toNat_eq
    rw [packBits_toNat _ _ (by norm_num)]
    have := p.isLt
    simp only [decide_eq_true_eq]
    split <;> omega
  · intro h
    rw [h, packBits_toNat _ _ (by norm_num)]
    split <;> simp

@[simp] theorem zeroOf_class (s : Bool) :
    isZero (zeroOf s) = true ∧ isNaN (zeroOf s) = false ∧ isInf (zeroOf s) = false ∧ signOf (zeroOf s) = s ∧
      isFinite (zeroOf s) = true := by cases s <;> decide

@[simp] theorem infOf_class (s : Bool) :
    isZero (infOf s) = false ∧ isNaN (infOf s) = false ∧ isInf (infOf s) = true ∧ signOf (infOf s) = s ∧
      isFinite (infOf s) = false := by cases s <;> decide

theorem not_nan_of_isFinite {p : F32} (h : isFinite p = true) : isNaN p = false ∧ isInf p = false := by
  simp [isFinite, isNaN, isInf] at *; constructor <;> intro e <;> exact absurd e h

/-- The three classes that R104 to R107 tell apart first. -/
theorem class_cases (p : F32) : isNaN p = true ∨ isInf p = true ∧ isNaN p = false ∨ isFinite p = true := by
  simp only [isNaN, isInf, isFinite]
  by_cases h : expOf p = 255 <;> by_cases h2 : fracOf p = 0 <;> simp [h, h2]

theorem magOf_pos {p : F32} (h : isZero p = false) : 0 < magOf p := by
  unfold magOf
  split
  · rename_i h0; simp [isZero, h0] at h; omega
  · positivity

/-- A pattern is its sign, exponent and fraction. -/
theorem fields_ext {x y : F32} (h1 : signOf x = signOf y) (h2 : expOf x = expOf y) (h3 : fracOf x = fracOf y) : x = y := by
  apply BitVec.eq_of_toNat_eq
  rw [signOf_eq, signOf_eq] at h1
  rw [expOf_eq, expOf_eq] at h2
  rw [fracOf_eq, fracOf_eq] at h3
  have hx := x.isLt
  have hy := y.isLt
  have : (2 ^ 31 ≤ x.toNat) ↔ (2 ^ 31 ≤ y.toNat) := by simpa using h1
  omega

/-- A pattern's sign and magnitude say which pattern it is. -/
theorem magOf_injective {x y : F32} (h1 : signOf x = signOf y) (h : magOf x = magOf y) : x = y := by
  have fx := fracOf_lt x
  have fy := fracOf_lt y
  have key : ∀ a b e f : Nat, a < 2 ^ 23 → e < f → (2 ^ 23 + a) * 2 ^ e ≠ (2 ^ 23 + b) * 2 ^ f := by
    intro a b e f ha he hc
    have h4 : (2 ^ 23 + a) * 2 ^ e < 2 ^ 24 * 2 ^ e := Nat.mul_lt_mul_of_pos_right (by omega) (by positivity)
    have h5 : 2 ^ 23 * 2 ^ (e + 1) ≤ (2 ^ 23 + b) * 2 ^ f :=
      Nat.mul_le_mul (by omega) (Nat.pow_le_pow_right (by norm_num) he)
    have h6 : 2 ^ 24 * 2 ^ e = 2 ^ 23 * 2 ^ (e + 1) := by ring
    omega
  have small : ∀ a e : Nat, 2 ^ 23 ≤ (2 ^ 23 + a) * 2 ^ e := fun a e => by
    calc 2 ^ 23 = 2 ^ 23 * 1 := by norm_num
      _ ≤ _ := Nat.mul_le_mul (by omega) Nat.one_le_two_pow
  unfold magOf at h
  split at h <;> split at h
  · exact fields_ext h1 (by omega) h
  · have := small (fracOf y) (expOf y - 1); omega
  · have := small (fracOf x) (expOf x - 1); omega
  · have he : expOf x - 1 = expOf y - 1 := by
      rcases lt_trichotomy (expOf x - 1) (expOf y - 1) with h5 | h5 | h5
      · exact absurd h (key _ _ _ _ fx h5)
      · exact h5
      · exact absurd h.symm (key _ _ _ _ fy h5)
    rw [he] at h
    have := Nat.eq_of_mul_eq_mul_right (by positivity) h
    exact fields_ext h1 (by omega) (by omega)

/-- Negation changes the sign and nothing else of a pattern that is not a NaN. -/
theorem fneg_fields {nan x : F32} (h : isNaN x = false) :
    signOf (fneg nan x) = (!signOf x) ∧ expOf (fneg nan x) = expOf x ∧ fracOf (fneg nan x) = fracOf x := by
  have e : fneg nan x = x ^^^ 0x80000000#32 := by simp [fneg, h]
  rw [e]
  refine ⟨?_, ?_, ?_⟩
  · rw [signOf, signOf, BitVec.msb_xor, show (0x80000000#32).msb = true from by decide, Bool.xor_true]
  · rw [expOf, expOf, BitVec.extractLsb'_xor, show (0x80000000#32).extractLsb' 23 8 = 0#8 from by decide, BitVec.xor_zero]
  · rw [fracOf, fracOf, BitVec.extractLsb'_xor, show (0x80000000#32).extractLsb' 0 23 = 0#23 from by decide, BitVec.xor_zero]

end Sys2Proof.Machine
end

