-- ==== Sys2Proof/Laws/PerInstr.lean ====
section
/-! SUPPORT. Families of facts about every instruction as syntax, one lemma per constructor. -/

namespace Sys2Proof.Laws

/-- The encoding leaves the reserved field zero (30_encoding.md R70). -/
def ReservedZero.Statement (i : Instr) : Prop := rsvField (encode i) = 0

theorem ReservedZero.bqProc (x0 : F32) : ReservedZero.Statement (.bqProc x0) := packCmd_rsv _ _ _ _
theorem ReservedZero.bqDsgn (f0 q sampleRate : F32) : ReservedZero.Statement (.bqDsgn f0 q sampleRate) := packCmd_rsv _ _ _ _
theorem ReservedZero.udPeek : ReservedZero.Statement .udPeek := packCmd_rsv _ _ _ _
theorem ReservedZero.udRdadv (newValue : F32) : ReservedZero.Statement (.udRdadv newValue) := packCmd_rsv _ _ _ _
theorem ReservedZero.svfStep (input wct q : F32) : ReservedZero.Statement (.svfStep input wct q) := packCmd_rsv _ _ _ _
theorem ReservedZero.svfLow : ReservedZero.Statement .svfLow := packCmd_rsv _ _ _ _
theorem ReservedZero.svfMid : ReservedZero.Statement .svfMid := packCmd_rsv _ _ _ _
theorem ReservedZero.svfHigh : ReservedZero.Statement .svfHigh := packCmd_rsv _ _ _ _
theorem ReservedZero.auxN2f (note : F32) : ReservedZero.Statement (.auxN2f note) := packCmd_rsv _ _ _ _
theorem ReservedZero.auxDb2lin (db : F32) : ReservedZero.Statement (.auxDb2lin db) := packCmd_rsv _ _ _ _
theorem ReservedZero.rdreg (index : BitVec 32) : ReservedZero.Statement (.rdreg index) := packCmd_rsv _ _ _ _

end Sys2Proof.Laws
end

