-- ==== Sys2Proof/Laws/State.lean ====
section
/-! SUPPORT. One lemma per field per update of the state, true by rfl, so that no proof unfolds a record update. -/

namespace Sys2Proof.Machine

section
variable (s : State) (st : Status) (d0 d1 d2 : F32) (k n : Nat) (inputs : List HostEvent)

@[simp] theorem answer_bq : (s.answer st d0 d1 d2).bq = s.bq := rfl
@[simp] theorem answer_svf : (s.answer st d0 d1 d2).svf = s.svf := rfl
@[simp] theorem answer_ud0 : (s.answer st d0 d1 d2).ud0 = s.ud0 := rfl
@[simp] theorem answer_rsp : (s.answer st d0 d1 d2).rsp = some (respond st d0 d1 d2) := rfl
@[simp] theorem answer_inputs : (s.answer st d0 d1 d2).inputs = s.inputs := rfl
@[simp] theorem answer_draws : (s.answer st d0 d1 d2).draws = s.draws := rfl

@[simp] theorem answerOne_bq : (s.answerOne d0).bq = s.bq := rfl
@[simp] theorem answerOne_svf : (s.answerOne d0).svf = s.svf := rfl
@[simp] theorem answerOne_ud0 : (s.answerOne d0).ud0 = s.ud0 := rfl
@[simp] theorem answerOne_rsp : (s.answerOne d0).rsp = some (respond .ok d0 0 0) := rfl
@[simp] theorem answerOne_inputs : (s.answerOne d0).inputs = s.inputs := rfl
@[simp] theorem answerOne_draws : (s.answerOne d0).draws = s.draws := rfl

@[simp] theorem answerIllegal_bq : s.answerIllegal.bq = s.bq := rfl
@[simp] theorem answerIllegal_svf : s.answerIllegal.svf = s.svf := rfl
@[simp] theorem answerIllegal_ud0 : s.answerIllegal.ud0 = s.ud0 := rfl
@[simp] theorem answerIllegal_rsp : s.answerIllegal.rsp = some (respond .errIllegal 0 0 0) := rfl
@[simp] theorem answerIllegal_inputs : s.answerIllegal.inputs = s.inputs := rfl
@[simp] theorem answerIllegal_draws : s.answerIllegal.draws = s.draws := rfl

@[simp] theorem drew_bq : (s.drew k).bq = s.bq := rfl
@[simp] theorem drew_svf : (s.drew k).svf = s.svf := rfl
@[simp] theorem drew_ud0 : (s.drew k).ud0 = s.ud0 := rfl
@[simp] theorem drew_rsp : (s.drew k).rsp = s.rsp := rfl
@[simp] theorem drew_inputs : (s.drew k).inputs = s.inputs := rfl
@[simp] theorem drew_draws : (s.drew k).draws = s.draws + k := rfl

@[simp] theorem withInputs_bq : (s.withInputs inputs).bq = s.bq := rfl
@[simp] theorem withInputs_svf : (s.withInputs inputs).svf = s.svf := rfl
@[simp] theorem withInputs_ud0 : (s.withInputs inputs).ud0 = s.ud0 := rfl
@[simp] theorem withInputs_rsp : (s.withInputs inputs).rsp = s.rsp := rfl
@[simp] theorem withInputs_inputs : (s.withInputs inputs).inputs = inputs := rfl
@[simp] theorem withInputs_draws : (s.withInputs inputs).draws = s.draws := rfl

@[simp] theorem stayIdle_bq : s.stayIdle.bq = s.bq := rfl
@[simp] theorem stayIdle_svf : s.stayIdle.svf = s.svf := rfl
@[simp] theorem stayIdle_ud0 : s.stayIdle.ud0 = s.ud0 := rfl
@[simp] theorem stayIdle_rsp : s.stayIdle.rsp = none := rfl
@[simp] theorem stayIdle_inputs : s.stayIdle.inputs = s.inputs := rfl
@[simp] theorem stayIdle_draws : s.stayIdle.draws = s.draws := rfl

@[simp] theorem applyReset_svf : (s.applyReset inputs).svf = { z1 := 0, z2 := 0, low := 0, mid := 0, high := 0 } := rfl
@[simp] theorem applyReset_hist : (s.applyReset inputs).bq.hist = { x1 := 0, x2 := 0, y1 := 0, y2 := 0 } := rfl
@[simp] theorem applyReset_ud0 : (s.applyReset inputs).ud0 = { v := 0 } := rfl
@[simp] theorem applyReset_rsp : (s.applyReset inputs).rsp = none := rfl
@[simp] theorem applyReset_inputs : (s.applyReset inputs).inputs = inputs := rfl
@[simp] theorem applyReset_draws : (s.applyReset inputs).draws = s.draws + 1 := rfl

end

@[simp] theorem shift_x1 (h : History) (x0 y0 : F32) : (h.shift x0 y0).x1 = x0 := rfl
@[simp] theorem shift_x2 (h : History) (x0 y0 : F32) : (h.shift x0 y0).x2 = h.x1 := rfl
@[simp] theorem shift_y1 (h : History) (x0 y0 : F32) : (h.shift x0 y0).y1 = y0 := rfl
@[simp] theorem shift_y2 (h : History) (x0 y0 : F32) : (h.shift x0 y0).y2 = h.y1 := rfl

end Sys2Proof.Machine
end

