-- ==== Sys2Proof/Laws/Step.lean ====
section
/-! SUPPORT. What a step, a command word and each command can do, said once: later proofs cite these and do not unfold the
meanings. -/

namespace Sys2Proof.Machine

/-- Every command completes: `exec` answers a next state with exactly one response, for every state and operands. -/
theorem exec_completes (i : Instr) (s : State) : ∃ t, exec i s = .next t ∧ t.rsp.isSome := by
  cases i with
  | rdreg index =>
    simp only [exec, execRdreg]
    cases s.readIndex index.toNat with
    | some v => exact ⟨_, rfl, rfl⟩
    | none => exact ⟨_, rfl, rfl⟩
  | _ => exact ⟨_, rfl, rfl⟩

/-- What RDREG does: it answers a register's bits, or refuses the index; nothing else. -/
theorem execRdreg_cases (index : BitVec 32) (s : State) :
    (∃ r, RegName.ofNumber index.toNat = some r ∧ execRdreg index s = .next (s.answerOne (s.read r))) ∨
    (RegName.ofNumber index.toNat = none ∧ execRdreg index s = .next s.answerIllegal) := by
  unfold execRdreg State.readIndex
  cases h : RegName.ofNumber index.toNat with
  | some r => exact .inl ⟨r, rfl, rfl⟩
  | none => exact .inr ⟨rfl, rfl⟩

/-- The numbers that name a register are 0 to 14. -/
theorem ofNumber_eq_none {k : Nat} : RegName.ofNumber k = none ↔ 14 < k := by
  constructor
  · intro h
    by_contra hk
    interval_cases k <;> simp [RegName.ofNumber] at h
  · intro h
    obtain ⟨m, rfl⟩ : ∃ m, k = m + 15 := ⟨k - 15, by omega⟩
    rfl

@[simp] theorem ofNumber_number (r : RegName) : RegName.ofNumber r.number = some r := by cases r <;> rfl

theorem number_of_ofNumber {k : Nat} {r : RegName} (h : RegName.ofNumber k = some r) : r.number = k := by
  have hk : k ≤ 14 := by
    by_contra hk
    simp [ofNumber_eq_none.mpr (by omega : 14 < k)] at h
  interval_cases k <;> (cases h; rfl)

/-- What a command word does: a legal one runs its command, an illegal one is answered. -/
theorem runWord_cases (w : CmdWord) (s : State) :
    (∃ i, decode w = .legal i ∧ runWord w s = exec i s) ∨
    (∃ e, decode w = .illegal e ∧ runWord w s = .next s.answerIllegal) := by
  unfold runWord
  cases h : decode w with
  | legal i => exact .inl ⟨i, rfl, rfl⟩
  | illegal e => exact .inr ⟨e, rfl, rfl⟩

theorem runWord_legal {w : CmdWord} {i : Instr} (h : decode w = .legal i) (s : State) : runWord w s = exec i s := by
  simp [runWord, h]

/-- Every command word is answered. -/
theorem runWord_completes (w : CmdWord) (s : State) : ∃ t, runWord w s = .next t ∧ t.rsp.isSome := by
  obtain ⟨i, -, h⟩ | ⟨e, -, h⟩ := runWord_cases w s
  · rw [h]; exact exec_completes i s
  · exact ⟨_, h, rfl⟩

/-- What a step can do, by the host's next event. -/
theorem step_cases {s t : State} (h : step s = .next t) :
    (∃ w rest, s.inputs = .command w :: rest ∧ runWord w (s.withInputs rest) = .next t) ∨
    (∃ e rest, s.inputs = e :: rest ∧ (e = .reset ∨ ∃ w, e = .resetInFlight w) ∧ t = s.applyReset rest) ∨
    (∃ rest, (s.inputs = [] ∧ rest = [] ∨ s.inputs = .idle :: rest) ∧ t = (s.withInputs rest).stayIdle) := by
  unfold step takeEvent at h
  split at h
  · rename_i hin
    cases h
    refine .inr (.inr ⟨[], .inl ⟨hin, rfl⟩, ?_⟩)
    cases s; cases hin; rfl
  · rename_i w rest hin
    exact .inl ⟨w, rest, hin, h⟩
  · rename_i rest hin
    cases h
    exact .inr (.inl ⟨_, rest, hin, .inl rfl, rfl⟩)
  · rename_i w rest hin
    cases h
    exact .inr (.inl ⟨_, rest, hin, .inr ⟨w, rfl⟩, rfl⟩)
  · rename_i rest hin
    cases h
    exact .inr (.inr ⟨rest, .inr hin, rfl⟩)
  · cases h

/-- A command neither reads nor changes the host's stream. -/
theorem exec_withInputs {i : Instr} {s t : State} (h : exec i s = .next t) (rest : List HostEvent) :
    exec i (s.withInputs rest) = .next (t.withInputs rest) ∧ t.inputs = s.inputs := by
  cases i with
  | rdreg index =>
    simp only [exec] at h ⊢
    obtain ⟨r, hr, hx⟩ | ⟨hr, hx⟩ := execRdreg_cases index s <;>
      obtain ⟨r', hr', hx'⟩ | ⟨hr', hx'⟩ := execRdreg_cases index (s.withInputs rest) <;> rw [hr] at hr' <;> cases hr' <;>
      rw [hx] at h <;> cases h <;> rw [hx']
    · exact ⟨by cases r <;> rfl, rfl⟩
    · exact ⟨rfl, rfl⟩
  | _ => cases h; exact ⟨rfl, rfl⟩

/-- A command word neither reads nor changes the host's stream. -/
theorem runWord_withInputs {w : CmdWord} {s t : State} (h : runWord w s = .next t) (rest : List HostEvent) :
    runWord w (s.withInputs rest) = .next (t.withInputs rest) ∧ t.inputs = s.inputs := by
  unfold runWord at h ⊢
  split at h
  · exact exec_withInputs h rest
  · cases h; exact ⟨rfl, rfl⟩

end Sys2Proof.Machine
end

