-- ==== Sys2Proof/Laws/Port.lean ====
section
/-! SUPPORT. What one clock edge can do at the pins, said once, and a response waited for by a ready host. -/

namespace Sys2Proof.Machine

/-- What an edge without a reset can do: nothing, accept, offer or deliver, wait. -/
theorem portEdge_cases {p q : PortState} {i : PinsIn} (hr : i.rst = false) (h : portEdge p i = .next q) :
    p.offerKept i = true ∧
    ((p.inFlight = none ∧ i.cmdValid = false ∧ q = { p with offered := none }) ∨
     (p.inFlight = none ∧ i.cmdValid = true ∧ p.accept i.cmd = .next q) ∨
     (∃ f, p.inFlight = some f ∧ f.wait = 0 ∧
       q = { p with inFlight := if i.rspReady then none else some f, offered := i.stillOffered }) ∨
     (∃ f, p.inFlight = some f ∧ f.wait ≠ 0 ∧
       q = { p with inFlight := some { f with wait := f.wait - 1 }, offered := i.stillOffered })) := by
  unfold portEdge at h
  rw [if_neg (by simp [hr])] at h
  split at h
  · rename_i hk
    refine ⟨hk, ?_⟩
    split at h
    · rename_i hf
      split at h
      · rename_i hc; exact .inr (.inl ⟨hf, hc, h⟩)
      · rename_i hc; cases h; exact .inl ⟨hf, by simpa using hc, rfl⟩
    · rename_i f hf
      split at h
      · rename_i hw; cases h; exact .inr (.inr (.inl ⟨f, hf, hw, rfl⟩))
      · rename_i hw; cases h; exact .inr (.inr (.inr ⟨f, hf, hw, rfl⟩))
  · cases h

/-- Accepting a command: its response is in flight, its register writes are done. -/
theorem accept_eq (p : PortState) (w : CmdWord) : ∃ t r, runWord w p.core = .next t ∧ t.rsp = some r ∧
    p.accept w = .next { core := t, inFlight := some { rsp := r, wait := Config.latency p.count + 1 }, offered := none,
                         count := p.count + 1 } := by
  obtain ⟨t, ht, hs⟩ := runWord_completes w p.core
  obtain ⟨r, hr⟩ := Option.isSome_iff_exists.mp hs
  exact ⟨t, r, ht, hr, by simp [PortState.accept, ht, hr]⟩

/-- A ready host that offers nothing gets the response in flight after as many edges as it has to wait, and one. -/
theorem portRun_wait (n : Nat) (s : State) (r : RspWord) (k : Nat) :
    portRun { core := s, inFlight := some { rsp := r, wait := k }, offered := none, count := n }
        (List.replicate (k + 1) ⟨false, false, 0, true⟩) =
      some { final := .idle n s, accepted := [], delivered := [r] } := by
  induction k with
  | zero =>
    simp [portRun, portEdge, PortState.offerKept, PinsIn.stillOffered, PortState.acceptedAt, PortState.deliveredAt,
      PortState.pins, PortState.idle]
  | succ k ih =>
    rw [List.replicate_succ]
    simp only [portRun, portEdge, PortState.offerKept, PinsIn.stillOffered]
    simp [PortState.acceptedAt, PortState.deliveredAt, PortState.pins]
    exact ih

end Sys2Proof.Machine
end

