-- ==== Sys2Proof/Laws/Properties.lean ====
section
/-! SUPPORT. The named property `P_EXP_FAITHFUL` can be met: every positive real has a faithful result. -/

namespace Sys2Proof.Machine

/-- A finite pattern of sign 0 has a magnitude of less than `2^128`, in units of `2^-149`. -/
theorem magOf_lt {p : F32} (h : isFinite p = true) : magOf p < 2 ^ 128 * 2 ^ 149 := by
  have h1 := expOf_lt p
  have h2 := fracOf_lt p
  have h3 : expOf p ≠ 255 := by simpa [isFinite] using h
  unfold magOf
  split
  · calc fracOf p < 2 ^ 23 := h2
      _ ≤ _ := by norm_num
  · calc (2 ^ 23 + fracOf p) * 2 ^ (expOf p - 1) < 2 ^ 24 * 2 ^ (expOf p - 1) :=
          Nat.mul_lt_mul_of_pos_right (by omega) (by positivity)
      _ ≤ 2 ^ 24 * 2 ^ 253 := Nat.mul_le_mul_left _ (Nat.pow_le_pow_right (by norm_num) (by omega))
      _ = 2 ^ 128 * 2 ^ 149 := by rw [← pow_add, ← pow_add]

theorem valueOf_positive {p : F32} (h : signOf p = false) : (valueOf p : ℝ) = (magOf p : ℝ) / 2 ^ 149 := by
  simp [valueOf, unitsOf, h]

theorem valueOf_nonpos {p : F32} (h : signOf p = true) : (valueOf p : ℝ) ≤ 0 := by
  have : (valueOf p : ℝ) = -((magOf p : ℝ) / 2 ^ 149) := by simp [valueOf, unitsOf, h]; ring
  rw [this]
  exact neg_nonpos.mpr (by positivity)

/-- Every positive real has a faithful result. -/
theorem exists_adjacentToPositive (r : ℝ) (hr : 0 < r) : ∃ p, AdjacentToPositive r p := by
  by_cases h1 : (2 : ℝ) ^ 128 - 2 ^ 103 ≤ r
  · refine ⟨infOf false, by decide, fun _ => rfl, fun h => ?_, fun h => absurd h1 (not_le.mpr h)⟩
    exact absurd (h1.trans h) (by norm_num)
  by_cases h2 : r ≤ 1 / 2 ^ 150
  · have hz : (valueOf (zeroOf false) : ℝ) = 0 := by rw [valueOf_positive (by decide), show magOf (zeroOf false) = 0 by decide]; simp
    refine ⟨zeroOf false, by decide, fun h => absurd h h1, fun _ => rfl, fun _ => .inl ⟨by decide, fun p' _ => ?_⟩⟩
    rw [hz]
    refine ⟨fun ⟨ha, hb⟩ => ?_, fun ⟨ha, hb⟩ => absurd (hr.trans_le ha) (not_lt.mpr hb.le)⟩
    cases hs : signOf p' with
    | true => exact absurd (valueOf_nonpos hs) (not_le.mpr ha)
    | false =>
      rw [valueOf_positive hs] at ha hb
      have hm : 0 < magOf p' := by
        by_contra h0
        rw [show magOf p' = 0 by omega] at ha
        simp at ha
      have hm' : (1 : ℝ) ≤ magOf p' := by exact_mod_cast hm
      have : (1 : ℝ) / 2 ^ 149 ≤ (magOf p' : ℝ) / 2 ^ 149 := by gcongr
      exact absurd ((this.trans hb).trans h2) (by norm_num)
  -- the largest finite number that is at most `r`
  let S : Set Nat := fun m => ∃ p, isFinite p = true ∧ signOf p = false ∧ magOf p = m ∧ (m : ℝ) / 2 ^ 149 ≤ r
  have hb : BddAbove S := ⟨2 ^ 128 * 2 ^ 149, by rintro m ⟨p, hp, -, rfl, -⟩; exact (magOf_lt hp).le⟩
  have hne : S.Nonempty := ⟨0, zeroOf false, by decide, by decide, by decide, by simpa using hr.le⟩
  obtain ⟨p, hp, hs, hm, hle⟩ := Nat.sSup_mem hne hb
  refine ⟨p, hs, fun h => absurd h h1, fun h => absurd h h2, fun _ => .inl ⟨hp, fun p' hp' => ⟨?_, ?_⟩⟩⟩
  · rintro ⟨ha, hb'⟩
    cases hs' : signOf p' with
    | true =>
      have h0 : (0 : ℝ) ≤ valueOf p := by rw [valueOf_positive hs]; positivity
      exact absurd (valueOf_nonpos hs') (not_le.mpr (h0.trans_lt ha))
    | false =>
      rw [valueOf_positive hs'] at ha hb'
      rw [valueOf_positive hs] at ha
      have hmem : magOf p' ∈ S := ⟨p', hp', hs', rfl, hb'⟩
      have hmax : magOf p' ≤ magOf p := by rw [hm]; exact le_csSup hb hmem
      have : (magOf p' : ℝ) / 2 ^ 149 ≤ (magOf p : ℝ) / 2 ^ 149 := by gcongr
      exact absurd ha (not_lt.mpr this)
  · rintro ⟨ha, hb'⟩
    rw [valueOf_positive hs, hm] at hb'
    exact absurd (hle.trans ha) (not_le.mpr hb')

/-- Functions with the named property `P_EXP_FAITHFUL` exist. -/
theorem exists_expFaithful : ∃ exp2 exp10, PExpFaithful exp2 exp10 :=
  ⟨fun x => Classical.choose (exists_adjacentToPositive ((2 : ℝ) ^ (valueOf x : ℝ)) (by positivity)),
   fun x => Classical.choose (exists_adjacentToPositive ((10 : ℝ) ^ (valueOf x : ℝ)) (by positivity)),
   fun _ _ => ⟨Classical.choose_spec _, Classical.choose_spec (exists_adjacentToPositive _ (by positivity))⟩⟩

end Sys2Proof.Machine
end

