-- ==== Sys2Proof/Laws/Rounding.lean ====
section
/-! SUPPORT. What rounding does, said once: the nearest integer, the spacing of the binade, and the pattern of a rounded
magnitude (spec 40_numerics.md R101). -/

namespace Sys2Proof.Machine

/-- `nearestEven` is within half a unit of `num / den`, and even when exactly half a unit away. -/
theorem nearestEven_spec (num den : Nat) (hd : 0 < den) :
    2 * num ≤ den * (2 * nearestEven num den + 1) ∧ den * (2 * nearestEven num den) ≤ 2 * num + den ∧
    (2 * num = den * (2 * nearestEven num den + 1) ∨ den * (2 * nearestEven num den) = 2 * num + den →
      nearestEven num den % 2 = 0) := by
  have h := Nat.div_add_mod num den
  have hr := Nat.mod_lt num hd
  simp only [nearestEven]
  generalize num / den = n at *
  generalize num % den = r at *
  have e1 : den * (2 * n + 1) = 2 * (den * n) + den := by ring
  have e2 : den * (2 * n) = 2 * (den * n) := by ring
  have e3 : den * (2 * (n + 1) + 1) = 2 * (den * n) + 3 * den := by ring
  have e4 : den * (2 * (n + 1)) = 2 * (den * n) + 2 * den := by ring
  split
  · rw [e1, e2]; omega
  · split
    · rw [e3, e4]; omega
    · rcases Nat.mod_two_eq_zero_or_one n with h0 | h0
      · rw [h0]; simp only [Nat.add_zero]; rw [e1, e2]; omega
      · rw [h0, e3, e4]; omega

/-- The exponent of the spacing used for `num / den`. -/
def spacingLog (num den : Nat) : Nat := Nat.log2 (num / den) - 23

theorem roundUnits_eq (num den : Nat) :
    roundUnits num den = nearestEven num (den * 2 ^ spacingLog num den) * 2 ^ spacingLog num den := rfl

/-- The binade: `num / den` is below `2^24` spacings, and at least `2^23` of them unless the spacing is one unit. -/
theorem spacingLog_bounds (num den : Nat) (hd : 0 < den) :
    num < den * (2 ^ 24 * 2 ^ spacingLog num den) ∧
    (spacingLog num den ≠ 0 → den * (2 ^ 23 * 2 ^ spacingLog num den) ≤ num) := by
  have hlt : num / den < 2 ^ (Nat.log2 (num / den) + 1) := Nat.lt_log2_self
  have hup : num < den * 2 ^ (Nat.log2 (num / den) + 1) := by
    have := (Nat.div_lt_iff_lt_mul hd).mp hlt
    rwa [Nat.mul_comm] at this
  have hk : Nat.log2 (num / den) + 1 ≤ 24 + spacingLog num den := by unfold spacingLog; omega
  constructor
  · refine lt_of_lt_of_le hup (Nat.mul_le_mul_left den ?_)
    rw [← pow_add]
    exact Nat.pow_le_pow_right (by norm_num) hk
  · intro h0
    have hl : Nat.log2 (num / den) = 23 + spacingLog num den := by unfold spacingLog at h0 ⊢; omega
    have hne : num / den ≠ 0 := by
      intro h
      rw [h] at hl
      simp at hl
      omega
    have hlow : 2 ^ Nat.log2 (num / den) ≤ num / den := Nat.log2_self_le hne
    rw [hl, pow_add] at hlow
    have := (Nat.le_div_iff_mul_le hd).mp hlow
    rwa [Nat.mul_comm] at this

/-- The rounded integer is at most `2^24`, and at least `2^23` unless the spacing is one unit. -/
theorem nearestEven_bounds (num den : Nat) (hd : 0 < den) :
    nearestEven num (den * 2 ^ spacingLog num den) ≤ 2 ^ 24 ∧
    (spacingLog num den ≠ 0 → 2 ^ 23 ≤ nearestEven num (den * 2 ^ spacingLog num den)) := by
  obtain ⟨hup, hlow⟩ := spacingLog_bounds num den hd
  generalize spacingLog num den = k at *
  have hq : 0 < den * 2 ^ k := Nat.mul_pos hd (by positivity)
  obtain ⟨h1, h2, -⟩ := nearestEven_spec num (den * 2 ^ k) hq
  generalize nearestEven num (den * 2 ^ k) = n at *
  have e1 : den * (2 ^ 24 * 2 ^ k) = (den * 2 ^ k) * 2 ^ 24 := by ring
  have e2 : den * (2 ^ 23 * 2 ^ k) = (den * 2 ^ k) * 2 ^ 23 := by ring
  rw [e1] at hup
  rw [e2] at hlow
  generalize den * 2 ^ k = q at *
  constructor
  · by_contra hn
    have : q * (2 * (2 ^ 24 + 1)) ≤ q * (2 * n) := Nat.mul_le_mul_left q (by omega)
    have e : q * (2 * (2 ^ 24 + 1)) = 2 * (q * 2 ^ 24) + 2 * q := by ring
    omega
  · intro hk
    have := hlow hk
    by_contra hn
    have hle : q * (2 * n + 1) ≤ q * (2 * (2 ^ 23 - 1) + 1) := Nat.mul_le_mul_left q (by omega)
    have e : q * (2 * (2 ^ 23 - 1) + 1) + q = 2 * (q * 2 ^ 23) := by
      have : q * (2 * (2 ^ 23 - 1) + 1) + q = q * (2 * (2 ^ 23 - 1) + 1 + 1) := by ring
      rw [this]
      norm_num
      ring
    omega

/-- Packing a magnitude of the form `n * 2^k` in its binade gives a finite pattern of that sign and magnitude, whose last bit
is the parity of `n`. -/
theorem packUnits_spec (s : Bool) (n k : Nat) (hn : n ≤ 2 ^ 24) (hk : k ≠ 0 → 2 ^ 23 ≤ n)
    (hv : n * 2 ^ k < 2 ^ 128 * 2 ^ 149) :
    signOf (packUnits s (n * 2 ^ k)) = s ∧ expOf (packUnits s (n * 2 ^ k)) < 255 ∧
    magOf (packUnits s (n * 2 ^ k)) = n * 2 ^ k ∧ (packUnits s (n * 2 ^ k)).toNat % 2 = n % 2 := by
  -- `j` is the exponent of the spacing read off the magnitude; `m` is the magnitude in those spacings
  obtain ⟨j, m, hm, hmj, hj, hpar, hlog⟩ : ∃ j m, n * 2 ^ k = m * 2 ^ j ∧ m < 2 ^ 24 ∧ (j ≠ 0 → 2 ^ 23 ≤ m) ∧
      (j * 2 ^ 23 + m) % 2 = n % 2 ∧ Nat.log2 (n * 2 ^ k) - 23 = j := by
    have key : ∀ j m, m < 2 ^ 24 → (j ≠ 0 → 2 ^ 23 ≤ m) → Nat.log2 (m * 2 ^ j) - 23 = j := by
      intro j m h1 h2
      rcases Nat.eq_zero_or_pos m with rfl | hp
      · have : j = 0 := by by_contra h; have := h2 h; omega
        subst this; simp
      · have hlt : Nat.log2 (m * 2 ^ j) < 24 + j := by
          rw [Nat.log2_lt (by positivity), pow_add]
          exact Nat.mul_lt_mul_of_pos_right h1 (by positivity)
        rcases Nat.eq_zero_or_pos j with rfl | hj
        · omega
        · have hge : 23 + j ≤ Nat.log2 (m * 2 ^ j) := by
            rw [Nat.le_log2 (by positivity), pow_add]
            exact Nat.mul_le_mul_right _ (h2 (by omega))
          omega
    rcases Nat.lt_or_ge n (2 ^ 24) with h | h
    · exact ⟨k, n, rfl, h, hk, by omega, key k n h hk⟩
    · have hn' : n = 2 ^ 24 := by omega
      have e : n * 2 ^ k = 2 ^ 23 * 2 ^ (k + 1) := by rw [hn', pow_succ]; ring
      refine ⟨k + 1, 2 ^ 23, e, by norm_num, fun _ => le_refl _, by omega, ?_⟩
      rw [e]
      exact key (k + 1) (2 ^ 23) (by norm_num) (fun _ => le_refl _)
  have hj254 : j < 254 := by
    by_contra h
    have h23 := hj (by omega)
    have : 2 ^ 23 * 2 ^ 254 ≤ m * 2 ^ j := Nat.mul_le_mul h23 (Nat.pow_le_pow_right (by norm_num) (by omega))
    rw [hm] at hv
    have e : (2 : Nat) ^ 23 * 2 ^ 254 = 2 ^ 128 * 2 ^ 149 := by rw [← pow_add, ← pow_add]
    omega
  have hlow : j * 2 ^ 23 + m < 2 ^ 31 := by omega
  have hp : packUnits s (n * 2 ^ k) = packBits s (j * 2 ^ 23 + m) := by
    unfold packUnits
    rw [if_neg (by omega)]
    simp only [hlog]
    rw [hm, Nat.mul_div_cancel _ (by positivity)]
  rw [hp, signOf_packBits _ _ hlow, expOf_packBits _ _ hlow, packBits_toNat _ _ hlow]
  refine ⟨rfl, by omega, ?_, ?_⟩
  · simp only [magOf, expOf_packBits _ _ hlow, fracOf_packBits _ _ hlow]
    rw [hm]
    rcases Nat.lt_or_ge m (2 ^ 23) with h | h
    · have : j = 0 := by by_contra h0; have := hj h0; omega
      subst this
      rw [if_pos (by omega)]
      omega
    · have e1 : (j * 2 ^ 23 + m) / 2 ^ 23 = j + 1 := by omega
      have e2 : (j * 2 ^ 23 + m) % 2 ^ 23 = m - 2 ^ 23 := by omega
      rw [e1, e2, if_neg (by omega), Nat.add_sub_cancel,
        Nat.add_sub_cancel' h]
  · cases s <;> simp <;> omega

/-- The magnitude of a finite pattern is a whole number of spacings `2^k`, or it lies below the binade `2^23 * 2^k`. -/
theorem magOf_grid (p : F32) (k : Nat) (h : 2 ^ 23 * 2 ^ k ≤ magOf p) : 2 ^ k ∣ magOf p := by
  unfold magOf at *
  have hf := fracOf_lt p
  split at h
  · rename_i h0
    rw [if_pos h0]
    have : (1 : Nat) ≤ 2 ^ k := Nat.one_le_two_pow
    have : 2 ^ 23 * 1 ≤ 2 ^ 23 * 2 ^ k := Nat.mul_le_mul_left _ this
    omega
  · rename_i h0
    rw [if_neg h0]
    apply Dvd.dvd.mul_left
    apply pow_dvd_pow
    by_contra hlt
    have hle : 2 ^ (expOf p - 1 + 1) ≤ 2 ^ k := Nat.pow_le_pow_right (by norm_num) (by omega)
    have h1 : (2 ^ 23 + fracOf p) * 2 ^ (expOf p - 1) < 2 ^ 24 * 2 ^ (expOf p - 1) :=
      Nat.mul_lt_mul_of_pos_right (by omega) (by positivity)
    have h2 : 2 ^ 23 * 2 ^ (expOf p - 1 + 1) = 2 ^ 24 * 2 ^ (expOf p - 1) := by rw [pow_succ]; ring
    have h3 : 2 ^ 23 * 2 ^ (expOf p - 1 + 1) ≤ 2 ^ 23 * 2 ^ k := Nat.mul_le_mul_left _ hle
    omega

/-- No integer is nearer to `num / d` than `nearestEven` (distances times `d`), and it is even if another is as near. -/
theorem nearestEven_nearest (num d j : Nat) (hd : 0 < d) :
    |((nearestEven num d * d : Nat) : Int) - num| ≤ |((j * d : Nat) : Int) - num| ∧
    (|((nearestEven num d * d : Nat) : Int) - num| = |((j * d : Nat) : Int) - num| → j ≠ nearestEven num d →
      nearestEven num d % 2 = 0) := by
  obtain ⟨h1, h2, h3⟩ := nearestEven_spec num d hd
  generalize nearestEven num d = n at *
  push_cast
  have i1 : (2 * num : Int) ≤ d * (2 * n + 1) := by exact_mod_cast h1
  have i2 : (d : Int) * (2 * n) ≤ 2 * num + d := by exact_mod_cast h2
  have i3 : (2 * num : Int) = d * (2 * n + 1) ∨ (d : Int) * (2 * n) = 2 * num + d → n % 2 = 0 := by
    rintro (h | h)
    · exact h3 (.inl (by exact_mod_cast h))
    · exact h3 (.inr (by exact_mod_cast h))
  have hdp : (0 : Int) < d := by exact_mod_cast hd
  clear h1 h2 h3
  rcases lt_trichotomy j n with hj | hj | hj
  · have hx : (j : Int) * d + d ≤ n * d := by
      have := mul_le_mul_of_nonneg_right (show (j : Int) + 1 ≤ n by exact_mod_cast hj) hdp.le
      linarith
    constructor
    · rcases abs_cases ((n : Int) * d - num) with ⟨a, _⟩ | ⟨a, _⟩ <;>
        rcases abs_cases ((j : Int) * d - num) with ⟨b, _⟩ | ⟨b, _⟩ <;> rw [a, b] <;> linarith
    · intro h _
      apply i3
      rcases abs_cases ((n : Int) * d - num) with ⟨a, _⟩ | ⟨a, _⟩ <;>
        rcases abs_cases ((j : Int) * d - num) with ⟨b, _⟩ | ⟨b, _⟩ <;> rw [a, b] at h <;>
        first | (exfalso; linarith) | (right; linarith)
  · subst hj; exact ⟨le_refl _, fun _ h => absurd rfl h⟩
  · have hx : (n : Int) * d + d ≤ j * d := by
      have := mul_le_mul_of_nonneg_right (show (n : Int) + 1 ≤ j by exact_mod_cast hj) hdp.le
      linarith
    constructor
    · rcases abs_cases ((n : Int) * d - num) with ⟨a, _⟩ | ⟨a, _⟩ <;>
        rcases abs_cases ((j : Int) * d - num) with ⟨b, _⟩ | ⟨b, _⟩ <;> rw [a, b] <;> linarith
    · intro h _
      apply i3
      rcases abs_cases ((n : Int) * d - num) with ⟨a, _⟩ | ⟨a, _⟩ <;>
        rcases abs_cases ((j : Int) * d - num) with ⟨b, _⟩ | ⟨b, _⟩ <;> rw [a, b] at h <;>
        first | (exfalso; linarith) | (left; linarith)

/-- No magnitude `m` on the grid of `magOf_grid` is nearer to `num / den` than the rounded one (distances times `den`), and the
rounded integer is even if another is as near. -/
theorem roundUnits_nearest (num den m : Nat) (hd : 0 < den) (hg : ∀ k, 2 ^ 23 * 2 ^ k ≤ m → 2 ^ k ∣ m) :
    |((roundUnits num den * den : Nat) : Int) - num| ≤ |((m * den : Nat) : Int) - num| ∧
    (|((roundUnits num den * den : Nat) : Int) - num| = |((m * den : Nat) : Int) - num| → m ≠ roundUnits num den →
      nearestEven num (den * 2 ^ spacingLog num den) % 2 = 0) := by
  obtain ⟨-, hlow⟩ := spacingLog_bounds num den hd
  have near := fun j => nearestEven_nearest num (den * 2 ^ spacingLog num den) j (Nat.mul_pos hd (by positivity))
  rw [roundUnits_eq]
  generalize spacingLog num den = k at *
  generalize nearestEven num (den * 2 ^ k) = n at *
  have e : ∀ x : Nat, x * 2 ^ k * den = x * (den * 2 ^ k) := fun x => by ring
  by_cases hm : 2 ^ 23 * 2 ^ k ≤ m
  · obtain ⟨j, rfl⟩ := hg k hm
    rw [Nat.mul_comm (2 ^ k) j, e, e]
    refine ⟨(near j).1, fun h hne => (near j).2 h ?_⟩
    rintro rfl
    exact hne rfl
  · rcases Nat.eq_zero_or_pos k with rfl | hk
    · simpa using near m
    · have hl := hlow (by omega)
      have c := (near (2 ^ 23)).1
      rw [e]
      have e2 : 2 ^ 23 * (den * 2 ^ k) = den * (2 ^ 23 * 2 ^ k) := by ring
      have hlt : m * den < den * (2 ^ 23 * 2 ^ k) := by
        rw [Nat.mul_comm]
        exact Nat.mul_lt_mul_of_pos_left (by omega) hd
      rw [e2] at c
      have s1 : ∀ v : Nat, v ≤ num → |(v : Int) - num| = num - v := fun v hv => by
        have : (v : Int) ≤ num := by exact_mod_cast hv
        rw [abs_of_nonpos (by linarith)]; ring
      have hlt' : ((m * den : Nat) : Int) < ((den * (2 ^ 23 * 2 ^ k) : Nat) : Int) := by exact_mod_cast hlt
      rw [s1 _ hl] at c
      rw [s1 (m * den) (by omega)]
      exact ⟨by linarith, fun h => absurd h (by linarith)⟩

end Sys2Proof.Machine
end

