-- ==== Sys2Proof/Tests/Slice0.lean ====
section
/-! SUPPORT. The model's own tests. Expected results are the vectors of spec/95_test_vectors.md (named at each test), never
the model's answers; the witness_ theorems show that the hypotheses of the statements can be met together. -/

namespace Sys2Proof.Tests

open Sys2Proof Sys2Proof.Machine

/-- The biquad coefficients of V-BQ-1. -/
def coefsBQ1 : Coefs := { b0 := 0x3F000000, b1 := 0x3E800000, b2 := 0x3E000000, a1 := 0xBF000000, a2 := 0x3E800000 }

/-- A state with every register `+0` but for the coefficients of V-BQ-1. -/
def base : State where
  bq := { hist := { x1 := 0, x2 := 0, y1 := 0, y2 := 0 }, coef := coefsBQ1 }
  svf := { z1 := 0, z2 := 0, low := 0, mid := 0, high := 0 }
  ud0 := { v := 0 }
  rsp := none
  inputs := []
  draws := 7

/-- The state a step answers, or `base` if it answers none. -/
def stateAfter (o : Host.Outcome State Fault Refusal) : State :=
  match o with
  | .next t => t
  | .fault _ => base
  | .refused _ => base

/-- A state with the given cells of the SVF. -/
def withCells (z1 z2 : F32) : State := { base with svf := { z1 := z1, z2 := z2, low := 0, mid := 0, high := 0 } }

/-- A quiet NaN pattern. -/
def aNaN : F32 := 0x7FC00001

-- ======== Well-formedness: the one check, with a term it refuses ========

theorem test_wf_rdreg_14 : (Instr.rdreg 14).wf = true := by decide
theorem test_wf_refuses_rdreg_15 : (Instr.rdreg 15).wf = false := by decide
theorem test_wf_refuses_rdreg_all_ones : (Instr.rdreg 0xFFFFFFFF).wf = false := by decide

-- ======== Decoding: every constructor by a word written out from R70 to R73 (V-ENC-1) ========

theorem test_decode_bqProc : decode 0x10000000_BF000000_00000000_00000000#128 = .legal (.bqProc 0xBF000000) := by decide
theorem test_decode_bqDsgn :
    decode 0x20000000_447A0000_3F3504F3_473B8000#128 = .legal (.bqDsgn 0x447A0000 0x3F3504F3 0x473B8000) := by decide
theorem test_decode_udPeek : decode 0x30000000_00000000_00000000_00000000#128 = .legal .udPeek := by decide
theorem test_decode_udRdadv : decode 0x40000000_3FC00000_00000000_00000000#128 = .legal (.udRdadv 0x3FC00000) := by decide
theorem test_decode_svfStep :
    decode 0x50000000_3F800000_3F000000_3F333333#128 = .legal (.svfStep 0x3F800000 0x3F000000 0x3F333333) := by decide
theorem test_decode_svfLow : decode 0x60000000_00000000_00000000_00000000#128 = .legal .svfLow := by decide
theorem test_decode_svfMid : decode 0x70000000_00000000_00000000_00000000#128 = .legal .svfMid := by decide
theorem test_decode_svfHigh : decode 0x80000000_00000000_00000000_00000000#128 = .legal .svfHigh := by decide
theorem test_decode_auxN2f : decode 0x90000000_428A0000_00000000_00000000#128 = .legal (.auxN2f 0x428A0000) := by decide
theorem test_decode_auxDb2lin :
    decode 0xA0000000_C0C00000_00000000_00000000#128 = .legal (.auxDb2lin 0xC0C00000) := by decide
theorem test_decode_rdreg : decode 0xB0000000_0000000E_00000000_00000000#128 = .legal (.rdreg 14) := by decide
theorem test_decodeTableWord :
    decodeTableWord 128 0x50000000_3F800000_3F000000_3F333333 = some (.svfStep 0x3F800000 0x3F000000 0x3F333333) := by decide

/-- V-ENC-2's illegal words, each for its reason. -/
theorem test_decode_illegal :
    decode 0x00000000_00000000_00000000_00000000#128 = .illegal .reservedOpcode ∧
    decode 0xC0000000_3F800000_00000000_00000000#128 = .illegal .reservedOpcode ∧
    decode 0x10000001_3F800000_00000000_00000000#128 = .illegal .reservedBits ∧
    decode 0x18000000_3F800000_00000000_00000000#128 = .illegal .reservedBits ∧
    decode 0x10000000_3F800000_00000000_00000001#128 = .illegal .unusedField ∧
    decode 0x10000000_3F800000_80000000_00000000#128 = .illegal .unusedField ∧
    decode 0x30000000_00000001_00000000_00000000#128 = .illegal .unusedField ∧
    decode 0xB0000000_0000000F_00000000_00000000#128 = .illegal .registerIndex ∧
    decode 0xB0000000_00000010_00000000_00000000#128 = .illegal .registerIndex := by decide

/-- The rows of R73 are pairwise disjoint: no word has the form of two commands. -/
theorem test_rows_disjoint :
    opcodeRows.Pairwise fun a b => a.pattern &&& (a.mask &&& b.mask) ≠ b.pattern &&& (a.mask &&& b.mask) := by decide

-- ======== Numerics (V-NUM-1) ========

theorem test_fadd_rounding :
    fadd aNaN 0x3F800000 0x33800000 = 0x3F800000 ∧ fadd aNaN 0x3F800001 0x33800000 = 0x3F800002 ∧
    fadd aNaN 0x3F800000 0x33800001 = 0x3F800001 ∧ fadd aNaN 0x3DCCCCCD 0x3E4CCCCD = 0x3E99999A ∧
    fadd aNaN 0x00000001 0x00000001 = 0x00000002 := by decide
theorem test_fadd_overflow_tie :
    fadd aNaN 0x7F7FFFFF 0x73000000 = 0x7F800000 ∧ fadd aNaN 0x7F7FFFFF 0x72FFFFFF = 0x7F7FFFFF := by decide +kernel
theorem test_fadd_zeros :
    fadd aNaN 0x80000000 0x80000000 = 0x80000000 ∧ fadd aNaN 0x00000000 0x80000000 = 0x00000000 ∧
    fsub aNaN 0x3F800000 0x3F800000 = 0x00000000 ∧ fsub aNaN 0x80000000 0x00000000 = 0x80000000 := by decide
theorem test_fmul_rounding :
    fmul aNaN 0x3DCCCCCD 0x3DCCCCCD = 0x3C23D70B ∧ fmul aNaN 0xBF800000 0x00000000 = 0x80000000 ∧
    fmul aNaN 0x00800000 0x3F000000 = 0x00400000 ∧ fmul aNaN 0x00000001 0x3F000000 = 0x00000000 ∧
    fmul aNaN 0x00000003 0x3F000000 = 0x00000002 ∧ fmul aNaN 0x80000001 0x3F000000 = 0x80000000 := by decide +kernel
theorem test_fmul_overflow : fmul aNaN 0x7F7FFFFF 0x40000000 = 0x7F800000 := by decide +kernel
theorem test_fdiv_rounding :
    fdiv aNaN 0x3F800000 0x40400000 = 0x3EAAAAAB ∧ fdiv aNaN 0x3F800000 0x41400000 = 0x3DAAAAAB ∧
    fdiv aNaN 0x00000001 0x40000000 = 0x00000000 := by decide +kernel
theorem test_fdiv_special :
    fdiv aNaN 0x3F800000 0x00000000 = 0x7F800000 ∧ fdiv aNaN 0xBF800000 0x00000000 = 0xFF800000 ∧
    fdiv aNaN 0x3F800000 0x80000000 = 0xFF800000 ∧ fdiv aNaN 0x3F800000 0x7F800000 = 0x00000000 := by decide
theorem test_created_nans :
    isNaN (fdiv aNaN 0x00000000 0x00000000) = true ∧ isNaN (fdiv aNaN 0x7F800000 0xFF800000) = true ∧
    isNaN (fmul aNaN 0x7F800000 0x00000000) = true ∧ isNaN (fsub aNaN 0x7F800000 0x7F800000) = true ∧
    isNaN (fadd aNaN 0x7F800001 0x3F800000) = true ∧ fadd aNaN 0x7F800000 0xBF800000 = 0x7F800000 := by decide
theorem test_fneg :
    fneg aNaN 0x00000000 = 0x80000000 ∧ fneg aNaN 0x3F800000 = 0xBF800000 ∧ fneg aNaN 0xFF800000 = 0x7F800000 := by decide
/-- R100's table, one pattern of each class. -/
theorem test_classes :
    classOf 0x80000000 = .zero ∧ classOf 0x007FFFFF = .subnormal ∧ classOf 0x7F7FFFFF = .normal ∧
    classOf 0xFF800000 = .infinity ∧ classOf 0x7FC00000 = .quietNaN ∧ classOf 0x7F800001 = .signalingNaN := by decide

-- ======== The instructions, one step each ========

/-- V-BQ-4: the shift uses the values before the command. -/
theorem test_bqProc_shift :
    let s := { base with bq := { base.bq with hist := { x1 := 0x40000000, x2 := 0x40400000, y1 := 0x40800000, y2 := 0x40A00000 } } }
    (stateAfter (exec (.bqProc 0x3F800000) s)).bq.hist =
      { x1 := 0x3F800000, x2 := 0x40000000, y1 := 0x40080000, y2 := 0x40800000 } := by decide +kernel
/-- V-BQ-6: the order of the sum. -/
theorem test_bqProc_order :
    let s := { base with bq :=
      { hist := { x1 := one, x2 := one, y1 := one, y2 := one }
        coef := { b0 := 0x3DCCCCCD, b1 := 0x3E4CCCCD, b2 := 0x3E99999A, a1 := 0x3ECCCCCD, a2 := 0x3F000000 } } }
    (stateAfter (exec (.bqProc one) s)).rsp = some 0x00000000_BE999999_00000000_00000000#128 := by decide +kernel
/-- V-BQ-D1, with the sine and cosine it assumes. -/
theorem test_bqDsgn_typical :
    designLowpass (fun x => if x = 0x3E060A92 then 0x3E05A8A9 else 0) (fun x => if x = 0x3E060A92 then 0x3F7DCF55 else 0) 0
        0x447A0000 0x3F3504F3 0x473B8000 =
      { b0 := 0x3B8052C2, b1 := 0x3C0052C2, b2 := 0x3B8052C2, a1 := 0xBFE85D18, a2 := 0x3F54BCC8 } := by decide +kernel
/-- BQ.DSGN keeps the history and answers zero data (V-BQ-D3, R136). -/
theorem test_bqDsgn_keeps_history :
    let s := { base with bq := { base.bq with hist := { x1 := 0x40000000, x2 := 0x40400000, y1 := 0x40800000, y2 := 0x40A00000 } } }
    (stateAfter (exec (.bqDsgn 0x463B8000 0x3F800000 0x473B8000) s)).bq.hist = s.bq.hist ∧
    (stateAfter (exec (.bqDsgn 0x463B8000 0x3F800000 0x473B8000) s)).rsp = some 0#128 := ⟨rfl, rfl⟩
/-- V-AUX-1, row 2, with `EXP2(1.0) = 2.0`. -/
theorem test_auxN2f_81 : noteToFrequency (fun x => if x = one then two else 0) 0 0x42A20000 = 0x445C0000 := by decide +kernel
/-- V-AUX-2, row 3, with `EXP10(-1.0) = 0x3DCCCCCD`. -/
theorem test_auxDb2lin_minus20 :
    decibelsToLinear (fun x => if x = 0xBF800000 then 0x3DCCCCCD else 0) 0 0xC1A00000 = 0x3DCCCCCD := by decide +kernel
/-- V-UD-1, step 7 and 8: a NaN payload passes through bit for bit. -/
theorem test_udRdadv_payload :
    let s := { base with ud0 := { v := 0x7FC00123 } }
    (stateAfter (exec (.udRdadv 0x00000001) s)).ud0.v = 0x00000001 ∧
    (stateAfter (exec (.udRdadv 0x00000001) s)).rsp = some 0x00000000_7FC00123_00000000_00000000#128 := by decide
/-- R162's example. -/
theorem test_udPeek : (stateAfter (exec .udPeek { base with ud0 := { v := 0x3FC00000 } })).rsp =
    some 0x00000000_3FC00000_00000000_00000000#128 := by decide
/-- V-SVF-2, step 2: the sign of the resonance term, read before write, `mid` the old `z2`. -/
theorem test_svfStep_second :
    let t := stateAfter (exec (.svfStep 0x00000000 0x3F000000 0x3F333333) (withCells 0x00000000 0x3F000000))
    t.rsp = some 0x00000000_3E800000_3F000000_BF19999A#128 ∧ t.svf.z1 = 0x3E800000 ∧ t.svf.z2 = 0x3E4CCCCC := by
  decide +kernel
/-- V-SVF-6: no fused multiply-add. V-SVF-5, step 1: subnormals are not flushed. -/
theorem test_svfStep_unfused_and_subnormal :
    (stateAfter (exec (.svfStep 0 0x3DCCCCCD 0) (withCells 0x3DCCCCCD 0x3E99999A))).svf =
      { z1 := 0x3E051EB8, z2 := 0x3E92F1AA, low := 0x3E051EB8, mid := 0x3E99999A, high := 0xBE051EB8 } ∧
    (stateAfter (exec (.svfStep 0 0x3F000000 0x3F000000) (withCells 0x00000001 0x00000003))).svf =
      { z1 := 0x00000003, z2 := 0x00000001, low := 0x00000003, mid := 0x00000003, high := 0x80000005 } := by decide +kernel
/-- V-SVF-3's accessors. -/
theorem test_svf_accessors :
    let s := { base with svf := { z1 := 0x3F400000, z2 := 0xBF300000, low := 0x3F400000, mid := 0x3E800000, high := 0xBFF00000 } }
    (stateAfter (exec .svfLow s)).rsp = some 0x00000000_3F400000_00000000_00000000#128 ∧
    (stateAfter (exec .svfMid s)).rsp = some 0x00000000_3E800000_00000000_00000000#128 ∧
    (stateAfter (exec .svfHigh s)).rsp = some 0x00000000_BFF00000_00000000_00000000#128 := by decide
/-- V-RD-1: index 10 and index 15. -/
theorem test_rdreg :
    (stateAfter (exec (.rdreg 10) (withCells 0 0x3E4CCCCC))).rsp = some 0x00000000_3E4CCCCC_00000000_00000000#128 ∧
    (stateAfter (exec (.rdreg 15) (withCells 0 0x3E4CCCCC))).rsp = some 0x10000000_00000000_00000000_00000000#128 := by decide
/-- The first command after reset, through the step: R163's example. -/
theorem test_first_command_after_reset :
    (stateAfter (step (State.reset.withFetchWord 128 0x40000000_3FC00000_00000000_00000000))).rsp = some 0#128 ∧
    (stateAfter (step (State.reset.withFetchWord 128 0x40000000_3FC00000_00000000_00000000))).ud0.v = 0x3FC00000 := by decide
/-- P3, command 6: an illegal word leaves the cell. -/
theorem test_illegal_word :
    let s := { base with ud0 := { v := 0x80000000 }, inputs := [.command 0x40000000_3F800000_00000000_00000001#128] }
    (stateAfter (step s)).ud0.v = 0x80000000 ∧
    (stateAfter (step s)).rsp = some 0x10000000_00000000_00000000_00000000#128 := by decide
/-- V-RST-2: a reset in flight. -/
theorem test_reset_in_flight :
    let s := { base with inputs := [.resetInFlight 0x50000000_3F800000_3F000000_3F333333#128] }
    (stateAfter (step s)).svf.z2 = 0 ∧ (stateAfter (step s)).rsp = none := by decide

-- ======== The text form (R79, V-ENC-1) ========

theorem test_assemble_dsgn :
    assembleLine "BQ.DSGN 1000.0, 0x3F3504F3, 48000.0  # typical" = .word 0x20000000_447A0000_3F3504F3_473B8000#128 := by
  decide +kernel
theorem test_assemble_db2lin_rdreg :
    assembleLine "aux.db2lin -6.0" = .word 0xA0000000_C0C00000_00000000_00000000#128 ∧
    assembleLine "rdreg 14" = .word 0xB0000000_0000000E_00000000_00000000#128 ∧ assembleLine "rdreg 15" = .bad ∧
    assembleLine "  # nothing" = .empty := by decide +kernel

-- ======== Witnesses: the hypotheses of the statements can be met ========

theorem witness_DecodeOfEncodeIsTheInstruction : (Instr.rdreg 14).wf = true := by decide
theorem witness_LegalWordIsTheEncodingOfItsCommand :
    decode 0xB0000000_0000000E_00000000_00000000#128 = .legal (.rdreg 14) := by decide
theorem witness_OpcodeRowsSelectTheirCommands :
    ⟨"RDREG", 0xB0000000000000000000000000000000#128, 0xFFFFFFFFFFFFFFF0FFFFFFFFFFFFFFFF#128⟩ ∈ opcodeRows := by decide
theorem witness_StepRunsTheDecodedCommand :
    { base with inputs := [.command 0x30000000_00000000_00000000_00000000#128, .idle] }.inputs =
      .command 0x30000000_00000000_00000000_00000000#128 :: [.idle] ∧
    decode 0x30000000_00000000_00000000_00000000#128 = .legal .udPeek := by decide
theorem witness_OfferedWordIsRunNext : (Instr.svfStep 0 0 0).wf = true := by decide
/-- The word of RDREG 15 fails only check (d). -/
theorem illegal_rdreg_15 : ¬LegalWord 0xB0000000_0000000F_00000000_00000000#128 := fun h => absurd (h.2.2.2.2 rfl) (by decide)
theorem illegal_zero : ¬LegalWord 0#128 := fun h => absurd h.1.1 (by decide)
theorem legal_rdreg_14 : LegalWord 0xB0000000_0000000E_00000000_00000000#128 := by unfold LegalWord; decide
theorem witness_IllegalWordOnlyAnswersErrIllegal :
    { base with inputs := [.command 0xB0000000_0000000F_00000000_00000000#128] }.inputs =
      .command 0xB0000000_0000000F_00000000_00000000#128 :: [] ∧ ¬LegalWord 0xB0000000_0000000F_00000000_00000000#128 :=
  ⟨rfl, illegal_rdreg_15⟩
theorem witness_EveryWordIsAnsweredByItsStatus :
    LegalWord 0xB0000000_0000000E_00000000_00000000#128 ∧ ¬LegalWord 0#128 := ⟨legal_rdreg_14, illegal_zero⟩
theorem witness_ResetEventGivesTheResetState :
    { base with inputs := [.reset] }.inputs = .reset :: [] ∧
    { base with inputs := [.resetInFlight 0#128] }.inputs = .resetInFlight 0#128 :: [] := ⟨rfl, rfl⟩
theorem witness_IdleStepKeepsEveryRegister :
    base.inputs = [] ∧ { base with inputs := [.idle, .reset] }.inputs = .idle :: [.reset] := ⟨rfl, rfl⟩
theorem witness_OnlyPowerLossStopsAStep :
    base.inputs.head? ≠ some .powerLoss ∧ { base with inputs := [.powerLoss] }.inputs.head? = some .powerLoss := by decide
theorem witness_StepKeepsLowEqualToZ1 :
    { base with inputs := [.command (encode .svfLow)] }.Inv ∧
    ∃ t, step { base with inputs := [.command (encode .svfLow)] } = .next t := by
  refine ⟨⟨rfl, ?_⟩, ?_⟩
  · intro r hr; cases hr
  · obtain ⟨t, ht, -⟩ := runWord_completes (encode .svfLow) (base.withInputs [])
    exact ⟨t, ht⟩
theorem witness_BiquadNaNOutputPersists :
    let s := { base with bq := { base.bq with hist := { x1 := 0, x2 := 0, y1 := aNaN, y2 := 0 } } }
    isNaN s.bq.hist.y1 = true ∧ step s = .next s.stayIdle ∧
      ∀ e ∈ s.inputs.head?, e ≠ .reset ∧ ∀ w, e ≠ .resetInFlight w := by
  refine ⟨by decide, rfl, ?_⟩
  intro e he; cases he
theorem witness_SvfNaNPersists :
    isNaN (withCells aNaN 0).svf.z1 = true ∧ isNaN (withCells 0 aNaN).svf.z2 = true ∧
    step (withCells aNaN 0) = .next (withCells aNaN 0).stayIdle ∧
      ∀ e ∈ (withCells aNaN 0).inputs.head?, e ≠ .reset ∧ ∀ w, e ≠ .resetInFlight w := by
  refine ⟨by decide, by decide, rfl, ?_⟩
  intro e he; cases he
theorem witness_CommandsWriteOnlyTheirOwnRegisters :
    ((∃ t, exec (.bqProc one) base = .next t) ∧ writes (.bqProc one) .bqB0 = false) ∧
    ¬LegalWord 0#128 ∧ runWord 0#128 base = .next base.answerIllegal := ⟨⟨⟨_, rfl⟩, rfl⟩, illegal_zero, rfl⟩
theorem witness_BqZeroInputGivesAZeroOfKnownSign :
    base.bq.hist = { x1 := 0, x2 := 0, y1 := 0, y2 := 0 } ∧ isFinite base.bq.coef.b0 = true ∧
    isFinite base.bq.coef.b1 = true ∧ isFinite base.bq.coef.b2 = true ∧ isFinite base.bq.coef.a1 = true ∧
    isFinite base.bq.coef.a2 = true := by decide
theorem witness_BqNaNReachesTheOutput :
    isNaN aNaN = true ∧ ∃ r, isNaN ({ base with bq := { base.bq with coef := { coefsBQ1 with a2 := aNaN } } }.read r) = true ∧
      r ∈ [RegName.bqX1, .bqX2, .bqY1, .bqY2, .bqB0, .bqB1, .bqB2, .bqA1, .bqA2] := ⟨by decide, .bqA2, by decide, by decide⟩
theorem witness_BqProcDependsOnBiquadAlone :
    base.bq = (withCells one two).bq ∧ isNaN (stateAfter (exec (.bqProc one) base)).bq.hist.y1 = false :=
  ⟨rfl, by decide +kernel⟩
theorem witness_ZeroQPoisonsTheFilter :
    isZero 0x00000000 = true ∧ isZero 0x80000000 = true ∧
    isNaN { base with bq := { base.bq with coef := { coefsBQ1 with a2 := aNaN } } }.bq.coef.a2 = true := by decide
/-- The sine and cosine of V-BQ-D4, and the boundary `cw = -1.0`. -/
theorem witness_ZeroQDesignStoresZerosAndANaN :
    isZero 0x80000000 = true ∧ isFinite 0x3E05A8A9 = true ∧ isZero 0x3E05A8A9 = false ∧ signOf 0x3E05A8A9 = false ∧
    isFinite 0x3F7DCF55 = true ∧ magOf 0x3F7DCF55 ≤ magOf one ∧ magOf 0xBF800000 ≤ magOf one := by decide
/-- A sine and a cosine with the named property `P_SPECIAL`. -/
def specialSin (x : F32) : F32 := if isNaN x || isInf x then aNaN else if isZero x then x else one
def specialCos (x : F32) : F32 := if isNaN x || isInf x then aNaN else one
theorem witness_NaNOperandMakesEveryCoefficientNaN :
    isNaN aNaN = true ∧ PSpecialTrig specialSin specialCos := by
  refine ⟨by decide, ?_, ?_⟩
  · rintro x (h | h) <;> simp [specialSin, specialCos, h] <;> decide
  · intro s; cases s <;> decide
theorem witness_ReferenceNoteAndZeroDecibels : PExp2Zero (fun _ => one) ∧ PExp10Zero (fun _ => one) := by decide
theorem witness_NoteToFrequencyIsMonotone : PExp2Mono (fun _ => one) ∧ valueLe sixtyNine (infOf false) := by
  exact ⟨fun _ _ _ => (by decide : valueLe one one), by decide⟩
theorem witness_MidIsTheBandOfTheStepBefore :
    (∀ i ∈ [Instr.udPeek], i.wf = true ∧ ∀ a b c, i ≠ .svfStep a b c) ∧
    ∃ t u v rs, exec (.svfStep one one one) base = .next t ∧ runWords ([Instr.udPeek].map encode) t = some (u, rs) ∧
      exec (.svfStep one one one) u = .next v := by
  constructor
  · intro i hi
    rw [List.mem_singleton] at hi
    subst hi
    exact ⟨rfl, fun _ _ _ h => nomatch h⟩
  · obtain ⟨t, ht, -⟩ := exec_completes (.svfStep one one one) base
    obtain ⟨u, hu, -⟩ := runWord_completes (encode .udPeek) t
    obtain ⟨v, hv, -⟩ := exec_completes (.svfStep one one one) u
    exact ⟨t, u, v, u.rsp.toList ++ [], ht, by simp [runWords, hu], hv⟩
/-- The smallest `wct > 0` and `q = -0`, numerically 0. -/
theorem witness_SvfZeroInputIsAFixedPoint :
    (∀ o ∈ [((0x00000001 : F32), (0x80000000 : F32))],
      (isFinite o.1 = true ∧ isZero o.1 = false ∧ signOf o.1 = false) ∧
        (isFinite o.2 = true ∧ (signOf o.2 = false ∨ isZero o.2 = true))) ∧
    base.svf = { z1 := 0, z2 := 0, low := 0, mid := 0, high := 0 } := by
  refine ⟨?_, rfl⟩
  intro o ho
  rw [List.mem_singleton] at ho
  subst ho
  decide
/-- The design of V-BQ-D2, whose `w0` is not a NaN, beside a command of another component. -/
theorem witness_InterleavedComponentsDoNotInterfere : ∀ f0 q sampleRate,
    encode (.bqDsgn f0 q sampleRate) ∈ [encode .svfLow, encode (.bqDsgn 0x463B8000 0x3F000000 0x473B8000)] →
      isNaN (angularCutoff 0 f0 sampleRate) = false := by
  intro f0 q sampleRate h
  simp only [List.mem_cons, List.not_mem_nil, or_false] at h
  rcases h with h | h
  · exact absurd (congrArg opField h) (by simp [encode])
  · have ha := congrArg fieldA h
    have hc := congrArg fieldC h
    simp only [encode, packCmd_a, packCmd_c] at ha hc
    subst ha hc
    decide +kernel
theorem witness_RdregAnswersTheNumberedRegister :
    (14 : BitVec 32).toNat ≤ 14 ∧ 14 < (15 : BitVec 32).toNat ∧ 14 < (0xFFFFFFFF : BitVec 32).toNat := by decide
theorem witness_Round32IsNearestTiesToEven : 0 < 1 ∧ round32 true 0 1 false = zeroOf false ∧ round32 true 3 2 true = 0x80000002 := by
  decide
theorem witness_FaddIsTheRoundedSum :
    isNaN aNaN = true ∧ isInf 0x7F800000 = true ∧ isNaN 0xFF800000 = false ∧ (0x7F800000 : F32) ≠ infOf (!signOf 0x7F800000) ∧
    isFinite 0x00000001 = true ∧ isZero 0x00000001 = false ∧ unitsOf 0x00000001 + unitsOf 0x80000001 = 0 ∧
    unitsOf 0x00000001 + unitsOf 0x00000001 ≠ 0 := by decide
theorem witness_AdditionAndMultiplicationIdentities :
    isFinite 0x7F7FFFFF = true ∧ isZero 0x7F7FFFFF = false ∧ isNaN 0x7F800000 = false := by decide
theorem witness_FsubIsAdditionOfTheNegation :
    isNaN 0x80000000 = false ∧ isNaN aNaN = true ∧ isFinite one = true ∧ isFinite two = true ∧ unitsOf one ≠ unitsOf two := by
  decide
theorem witness_FmulIsTheRoundedProduct :
    isNaN aNaN = true ∧ isInf 0x7F800000 = true ∧ isZero 0x80000000 = true ∧ isFinite 0x00000001 = true ∧
    isNaN 0x00000001 = false ∧ isZero 0x00000001 = false := by decide
theorem witness_FdivIsTheRoundedQuotient :
    isNaN aNaN = true ∧ isInf 0x7F800000 = true ∧ isInf 0xFF800000 = true ∧ isZero 0x80000000 = true ∧
    isFinite 0x7F7FFFFF = true ∧ isZero 0x7F7FFFFF = false := by decide
theorem witness_FnegInvertsTheSign : isNaN aNaN = true ∧ isNaN 0x80000000 = false ∧ isNaN one = false := by decide
theorem witness_NaNOperandsGiveNaNResults : isNaN 0x7F800001 = true ∧ isNaN 0xFFFFFFFF = true := by decide
theorem witness_ConstantsHaveTheirValues : isFinite twoPi = true := by decide
theorem witness_PinsGiveTheFunctionalModel :
    (∀ i ∈ [(⟨false, true, encode .udPeek, true⟩ : PinsIn)], i.rst = false) ∧
    ∃ t, portRun (.idle 0 base) [⟨false, true, encode .udPeek, true⟩] = some t := ⟨by decide, _, rfl⟩
/-- A ready host; `rsp_ready` is high at the first edge after `LAT` have passed. -/
theorem witness_AcceptedCommandIsEventuallyAnswered :
    let edges := List.replicate (Config.latency 0 + 2) (⟨false, false, 0, true⟩ : PinsIn)
    (∀ i ∈ edges, i.rst = false) ∧ (∃ t, portRun (.idle 0 base) (⟨false, true, encode .udPeek, false⟩ :: edges) = some t) ∧
    ∃ k i, Config.latency 0 + 1 ≤ k ∧ edges[k]? = some i ∧ i.rspReady = true := by
  refine ⟨fun i hi => by rw [List.eq_of_mem_replicate hi], ?_, Config.latency 0 + 1, _, le_refl _, by simp; rfl, rfl⟩
  obtain ⟨t, r, -, -, ha⟩ := accept_eq (.idle 0 base) (encode .udPeek)
  rw [← Option.isSome_iff_exists, portRun, show portEdge (.idle 0 base) ⟨false, true, encode .udPeek, false⟩ = _ from ha]
  show (Option.map _ (portRun _ (List.replicate (Config.latency 0 + 1 + 1) _))).isSome = true
  rw [show (PortState.idle 0 base).count = 0 from rfl, portRun_wait]
  rfl
/-- A response waiting for a host that is not ready, while the host offers another word. -/
def waiting : PortState := { core := base, inFlight := some ⟨0#128, 0⟩, offered := some 1#128, count := 0 }
theorem witness_OfferedResponseIsStable :
    waiting.inFlight = some ⟨0#128, 0⟩ ∧ waiting.offerKept ⟨false, true, 1#128, false⟩ = true := by decide
theorem witness_FaithfulExponentialsGiveTheWorkedValues : ∃ exp2 exp10, PExpFaithful exp2 exp10 := exists_expFaithful
theorem witness_ResetAtThePinsAbandonsTheCommand : (⟨true, true, 1#128, true⟩ : PinsIn).rst = true := rfl

end Sys2Proof.Tests
end

section
/-! What a step is for each of the host's events (00_scope.md R5, R6), one equation per event, and the two statements of the
scope family that follow from them. -/

namespace Sys2Proof.Machine

section
variable {s : State} {rest : List HostEvent}

theorem step_of_inputs_nil (h : s.inputs = []) : step s = .next s.stayIdle := by
  simp only [step, takeEvent, h]

theorem step_of_command {w : CmdWord} (h : s.inputs = .command w :: rest) : step s = runWord w (s.withInputs rest) := by
  simp only [step, takeEvent, h]

theorem step_of_reset (h : s.inputs = .reset :: rest) : step s = .next (s.applyReset rest) := by
  simp only [step, takeEvent, h]

theorem step_of_resetInFlight {w : CmdWord} (h : s.inputs = .resetInFlight w :: rest) :
    step s = .next (s.applyReset rest) := by
  simp only [step, takeEvent, h]

theorem step_of_idle (h : s.inputs = .idle :: rest) : step s = .next (s.withInputs rest).stayIdle := by
  simp only [step, takeEvent, h]

theorem step_of_powerLoss (h : s.inputs = .powerLoss :: rest) : step s = .refused .powerRemoved := by
  simp only [step, takeEvent, h]

/-- R200: whatever the word, legal or illegal, and whatever the state, a step on a command completes. -/
theorem safeStep_of_command {w : CmdWord} (h : s.inputs = .command w :: rest) : SafeStep s := by
  obtain ⟨t, ht, -⟩ := runWord_completes w (s.withInputs rest)
  exact ⟨t, (step_of_command h).trans ht⟩

/-- R215: the removal of power has no next state (log entry 8). -/
theorem not_safeStep_of_powerLoss (h : s.inputs = .powerLoss :: rest) : ¬SafeStep s := by
  rintro ⟨t, ht⟩
  rw [step_of_powerLoss h] at ht
  cases ht

end

/-- Settles O6: the step runs the word, and a legal word runs its command. -/
theorem stepRunsTheDecodedCommand : Obligations.StepRunsTheDecodedCommand := by
  intro s w rest i hin hdec
  calc step s = runWord w (s.withInputs rest) := step_of_command hin
    _ = exec i { s with inputs := rest } := runWord_legal hdec _

/-- Settles O14, by cases on the host's next event: every command is answered, and only the removal of power is refused. -/
theorem onlyPowerLossStopsAStep : Obligations.OnlyPowerLossStopsAStep := by
  intro s
  constructor
  · intro hsafe hhead
    obtain ⟨rest, hin⟩ := List.head?_eq_some_iff.mp hhead
    exact not_safeStep_of_powerLoss hin hsafe
  · intro hhead
    cases hin : s.inputs with
    | nil => exact ⟨_, step_of_inputs_nil hin⟩
    | cons e rest =>
      cases e with
      | command w => exact safeStep_of_command hin
      | reset => exact ⟨_, step_of_reset hin⟩
      | resetInFlight w => exact ⟨_, step_of_resetInFlight hin⟩
      | idle => exact ⟨_, step_of_idle hin⟩
      | powerLoss => exact absurd (by rw [hin]; rfl) hhead

end Sys2Proof.Machine
end

section
/-! The encoder and the decoder are inverse to each other on legal words and well-formed commands (30_encoding.md R70 to R74). -/

namespace Sys2Proof

/-- Every command that a legal word can hold is read back from its own word. -/
theorem decode_encode {i : Instr} (h : i.wf = true) : decode (encode i) = .legal i := by
  refine decode_legal.mpr ⟨?_, ?_⟩
  · cases i <;> exact packCmd_rsv _ _ _ _
  · cases i with
    | rdreg index =>
      have hle : index.toNat ≤ 14 := of_decide_eq_true h
      simp [encode, decodeOp, decodeFI, hle]
    | bqDsgn | svfStep => simp [encode, decodeOp, decodeF3]
    | bqProc | udRdadv | auxN2f | auxDb2lin => simp [encode, decodeOp, decodeF1]
    | udPeek | svfLow | svfMid | svfHigh => simp [encode, decodeOp, decodeF0]

/-- A word whose opcode field and unused fields are those of a command's word is that word. -/
theorem packCmd_eq_of_fields {w : CmdWord} {op : BitVec 4} {a b c : BitVec 32} (hrsv : rsvField w = 0)
    (hop : (opField w).toNat = op.toNat) (ha : fieldA w = a) (hb : fieldB w = b) (hc : fieldC w = c) :
    packCmd op a b c = w := by
  rw [← BitVec.eq_of_toNat_eq hop, ← ha, ← hb, ← hc, packCmd_fields w hrsv]

/-- A legal word is the encoding of the command it decodes to, and that command is well-formed. -/
theorem encode_of_decode {w : CmdWord} {i : Instr} (h : decode w = .legal i) : encode i = w ∧ i.wf = true := by
  obtain ⟨hrsv, h⟩ := decode_legal.mp h
  have word := fun {op a b c} => packCmd_eq_of_fields (w := w) (op := op) (a := a) (b := b) (c := c) hrsv
  unfold decodeOp at h
  split at h
  case h_2 hop | h_5 hop =>
    cases decodeF3_legal.mp h
    exact ⟨word hop rfl rfl rfl, rfl⟩
  case h_1 hop | h_4 hop | h_9 hop | h_10 hop =>
    obtain ⟨⟨hb, hc⟩, rfl⟩ := decodeF1_legal.mp h
    exact ⟨word hop rfl hb hc, rfl⟩
  case h_3 hop | h_6 hop | h_7 hop | h_8 hop =>
    obtain ⟨⟨ha, hb, hc⟩, rfl⟩ := decodeF0_legal.mp h
    exact ⟨word hop ha hb hc, rfl⟩
  case h_11 hop =>
    obtain ⟨⟨hb, hc⟩, hle, rfl⟩ := decodeFI_legal.mp h
    exact ⟨word hop rfl hb hc, decide_eq_true hle⟩
  case h_12 => cases h

/-- The word of a well-formed command passes R74's checks. -/
theorem legalWord_encode {i : Instr} (h : i.wf = true) : Machine.LegalWord (encode i) := by
  cases i with
  | rdreg index =>
    have hle : index.toNat ≤ 14 := of_decide_eq_true h
    simp [Machine.LegalWord, encode, hle]
  | _ => simp [Machine.LegalWord, encode]

/-- A word that R74 calls illegal is one the decoder rejects. -/
theorem decode_illegal_of_not_legalWord {w : CmdWord} (h : ¬Machine.LegalWord w) : ∃ e, decode w = .illegal e := by
  cases hd : decode w with
  | illegal e => exact ⟨e, rfl⟩
  | legal i =>
    obtain ⟨rfl, hwf⟩ := encode_of_decode hd
    exact absurd (legalWord_encode hwf) h

end Sys2Proof
end

section
/-! What one command does to each component (10_state.md R20, R25), and what a sequence of command words does (20_memory.md
R57): every command completes, an invariant of each word is one of the sequence, and words that a relation does not see can be
left out. -/

namespace Sys2Proof.Machine

/-- The biquad's history after a command: only BQ.PROC shifts it (R131). -/
def historyAfter (n : Nat) (b : Biquad) : Instr → History
  | .bqProc x0 => b.hist.shift x0 (biquadOutput n b x0)
  | _ => b.hist

/-- The biquad's coefficients after a command: only BQ.DSGN writes them (R134). -/
def coefsAfter (n : Nat) (c : Coefs) : Instr → Coefs
  | .bqDsgn f0 q sampleRate => designLowpass Config.sin Config.cos n f0 q sampleRate
  | _ => c

/-- The SVF registers after a command: only SVF.STEP writes them (R171). -/
def svfAfter (n : Nat) (f : Svf) : Instr → Svf
  | .svfStep input wct q => svfNext n f input wct q
  | _ => f

/-- The unit-delay cell after a command: only UD.RDADV writes it (R163). -/
def unitDelayAfter (u : UnitDelay) : Instr → UnitDelay
  | .udRdadv newValue => { v := newValue }
  | _ => u

theorem historyAfter_of_ne {i : Instr} (h : ∀ x0, i ≠ .bqProc x0) (n : Nat) (b : Biquad) : historyAfter n b i = b.hist := by
  cases i with
  | bqProc x0 => exact absurd rfl (h x0)
  | _ => rfl

theorem coefsAfter_of_ne {i : Instr} (h : ∀ f0 q sampleRate, i ≠ .bqDsgn f0 q sampleRate) (n : Nat) (c : Coefs) :
    coefsAfter n c i = c := by
  cases i with
  | bqDsgn f0 q sampleRate => exact absurd rfl (h f0 q sampleRate)
  | _ => rfl

theorem svfAfter_of_ne {i : Instr} (h : ∀ input wct q, i ≠ .svfStep input wct q) (n : Nat) (f : Svf) : svfAfter n f i = f := by
  cases i with
  | svfStep input wct q => exact absurd rfl (h input wct q)
  | _ => rfl

theorem unitDelayAfter_of_ne {i : Instr} (h : ∀ newValue, i ≠ .udRdadv newValue) (u : UnitDelay) : unitDelayAfter u i = u := by
  cases i with
  | udRdadv newValue => exact absurd rfl (h newValue)
  | _ => rfl

/-- What a command may do: each component goes where its own rule says, from its own registers and the draws alone; the
stream stays and the draw index never goes back. -/
structure CommandEffect (i : Instr) (s t : State) : Prop where
  hist : t.bq.hist = historyAfter s.draws s.bq i
  coef : t.bq.coef = coefsAfter s.draws s.bq.coef i
  svf : t.svf = svfAfter s.draws s.svf i
  ud0 : t.ud0 = unitDelayAfter s.ud0 i
  inputs : t.inputs = s.inputs
  draws : s.draws ≤ t.draws

theorem exec_effect {i : Instr} {s t : State} (h : exec i s = .next t) : CommandEffect i s t := by
  cases i with
  | rdreg index =>
    rw [exec] at h
    obtain ⟨r, -, hx⟩ | ⟨-, hx⟩ := execRdreg_cases index s <;> rw [hx] at h <;> cases h
    · exact ⟨rfl, rfl, rfl, rfl, rfl, le_rfl⟩
    · exact ⟨rfl, rfl, rfl, rfl, rfl, le_rfl⟩
  | _ => cases h; exact ⟨rfl, rfl, rfl, rfl, rfl, by simp⟩

theorem runWord_illegal {w : CmdWord} {e : DecodeError} (h : decode w = .illegal e) (s : State) :
    runWord w s = .next s.answerIllegal := by
  simp [runWord, h]

/-- A legal word has its command's effect. -/
theorem runWord_effect {w : CmdWord} {i : Instr} {s t : State} (hd : decode w = .legal i) (h : runWord w s = .next t) :
    CommandEffect i s t :=
  exec_effect ((runWord_legal hd s).symm.trans h)

/-- An illegal word only answers (R75). -/
theorem eq_answerIllegal_of_runWord {w : CmdWord} {e : DecodeError} {s t : State} (hd : decode w = .illegal e)
    (h : runWord w s = .next t) : t = s.answerIllegal := by
  cases (runWord_illegal hd s).symm.trans h
  rfl

/-- Every sequence of command words completes. -/
theorem runWords_completes (ws : List CmdWord) (s : State) : ∃ t rs, runWords ws s = some (t, rs) := by
  induction ws generalizing s with
  | nil => exact ⟨s, [], rfl⟩
  | cons w ws ih =>
    obtain ⟨t, ht, -⟩ := runWord_completes w s
    obtain ⟨u, rs, hu⟩ := ih t
    exact ⟨u, t.rsp.toList ++ rs, by simp [runWords, ht, hu]⟩

/-- A sequence runs its first word, then the others from where that one leaves the machine. -/
theorem runWords_cons {w : CmdWord} {ws : List CmdWord} {s u : State} {rs : List RspWord}
    (h : runWords (w :: ws) s = some (u, rs)) : ∃ t qs, runWord w s = .next t ∧ runWords ws t = some (u, qs) := by
  obtain ⟨t, ht, -⟩ := runWord_completes w s
  obtain ⟨v, qs, hv⟩ := runWords_completes ws t
  rw [runWords, ht] at h
  simp only [hv, Option.map_some, Option.some.injEq, Prod.mk.injEq] at h
  exact ⟨t, qs, ht, h.1 ▸ hv⟩

/-- Two runs of one stream, the second with some words left out, stay related if every word keeps the relation when both
run it and a word left out keeps it when the first alone runs it. -/
theorem runWords_filter_related {keep : CmdWord → Bool} {Rel : State → State → Prop} {ws : List CmdWord}
    (both : ∀ w ∈ ws, ∀ {s s' t t'}, Rel s s' → runWord w s = .next t → runWord w s' = .next t' → Rel t t')
    (skip : ∀ w ∈ ws, keep w = false → ∀ {s s' t}, Rel s s' → runWord w s = .next t → Rel t s')
    {s s' u u' : State} {rs rs' : List RspWord} (h : Rel s s') (hu : runWords ws s = some (u, rs))
    (hu' : runWords (ws.filter keep) s' = some (u', rs')) : Rel u u' := by
  induction ws generalizing s s' rs rs' with
  | nil => cases hu; cases hu'; exact h
  | cons w ws ih =>
    have ih := fun {s s' rs rs'} => ih (s := s) (s' := s') (rs := rs) (rs' := rs')
      (fun v hv => both v (.tail w hv)) (fun v hv => skip v (.tail w hv))
    obtain ⟨t, qs, ht, hv⟩ := runWords_cons hu
    cases hk : keep w with
    | true =>
      rw [List.filter_cons_of_pos hk] at hu'
      obtain ⟨t', qs', ht', hv'⟩ := runWords_cons hu'
      exact ih (both w (.head ws) h ht ht') hv hv'
    | false =>
      rw [List.filter_cons_of_neg (by simp [hk])] at hu'
      exact ih (skip w (.head ws) hk h ht) hv hu'

/-- Commands other than SVF.STEP leave the SVF registers as they were. -/
theorem runWords_svf_of_ne {is : List Instr} (his : ∀ i ∈ is, i.wf = true ∧ ∀ input wct q, i ≠ .svfStep input wct q)
    {s u : State} {rs : List RspWord} (h : runWords (is.map encode) s = some (u, rs)) : u.svf = s.svf := by
  induction is generalizing s rs with
  | nil => cases h; rfl
  | cons i is ih =>
    obtain ⟨t, qs, ht, hu⟩ := runWords_cons h
    obtain ⟨hwf, hne⟩ := his i (.head is)
    calc u.svf = t.svf := ih (fun j hj => his j (.tail i hj)) hu
      _ = svfAfter s.draws s.svf i := (runWord_effect (decode_encode hwf) ht).svf
      _ = s.svf := svfAfter_of_ne hne _ _

end Sys2Proof.Machine
end

section
/-! The primitives up to the pattern of created NaNs (40_numerics.md R113): operands equal up to NaN patterns give results
equal up to NaN patterns, whatever the draws. So do the SVF's step, the biquad's sample and, with R117's proviso, its design. -/

namespace Sys2Proof.Machine

@[simp] theorem sameUpToNaN_refl (a : F32) : sameUpToNaN a a := .inl rfl

theorem eq_of_sameUpToNaN {a b : F32} (h : sameUpToNaN a b) (ha : isNaN a = false) : a = b := by
  rcases h with h | ⟨hn, -⟩
  · exact h
  · rw [ha] at hn; cases hn

theorem sameUpToNaN_symm {a b : F32} (h : sameUpToNaN a b) : sameUpToNaN b a := by
  rcases h with h | ⟨ha, hb⟩
  · exact .inl h.symm
  · exact .inr ⟨hb, ha⟩

/-- An operation whose free NaN is its whole answer or no part of it: for given operands either every draw is the answer, or
neither operand is a NaN and the answer is the same for all draws. -/
def UsesDrawOnlyAsAnswer (op : F32 → F32 → F32 → F32) : Prop :=
  ∀ a b, (∀ nan, op nan a b = nan) ∨ isNaN a = false ∧ isNaN b = false ∧ ∀ nan nan', op nan a b = op nan' a b

theorem UsesDrawOnlyAsAnswer.sameUpToNaN {op : F32 → F32 → F32 → F32} (hop : UsesDrawOnlyAsAnswer op) {a a' b b' : F32}
    (ha : sameUpToNaN a a') (hb : sameUpToNaN b b') (n n' : Nat) :
    sameUpToNaN (op (nanDraw n) a b) (op (nanDraw n') a' b') := by
  rcases hop a b with h | ⟨hna, hnb, h⟩
  · rcases hop a' b' with h' | ⟨hna', hnb', -⟩
    · rw [h, h']; exact .inr ⟨isNaN_nanDraw n, isNaN_nanDraw n'⟩
    · rw [eq_of_sameUpToNaN (sameUpToNaN_symm ha) hna', eq_of_sameUpToNaN (sameUpToNaN_symm hb) hnb', h, h]
      exact .inr ⟨isNaN_nanDraw n, isNaN_nanDraw n'⟩
  · rw [← eq_of_sameUpToNaN ha hna, ← eq_of_sameUpToNaN hb hnb]
    exact .inl (h _ _)

/-- Addition answers its draw for a NaN operand and for infinities of opposite signs (R104). -/
theorem usesDrawOnlyAsAnswer_fadd : UsesDrawOnlyAsAnswer fadd := by
  intro a b
  by_cases hn : isNaN a = true ∨ isNaN b = true
  · exact .inl fun nan => fadd_of_nan nan a b hn
  · obtain ⟨ha, hb⟩ : isNaN a = false ∧ isNaN b = false := by simpa using hn
    by_cases hi : (isInf a && isInf b && signOf a != signOf b) = true
    · exact .inl fun nan => by simp [fadd, ha, hb, hi]
    · exact .inr ⟨ha, hb, fun nan nan' => by simp only [fadd, ha, hb, hi]; simp⟩

/-- Subtraction is addition of the negation, or answers its draw for a NaN operand (R105). -/
theorem usesDrawOnlyAsAnswer_fsub : UsesDrawOnlyAsAnswer fsub := by
  intro a b
  by_cases hn : isNaN a = true ∨ isNaN b = true
  · exact .inl fun nan => fsub_of_nan nan a b hn
  · obtain ⟨ha, hb⟩ : isNaN a = false ∧ isNaN b = false := by simpa using hn
    have hsub : ∀ nan, fsub nan a b = fadd nan a (b ^^^ 0x80000000#32) := fun nan => by simp [fsub, fneg, ha, hb]
    simp only [hsub]
    exact (usesDrawOnlyAsAnswer_fadd a (b ^^^ 0x80000000#32)).imp_right fun ⟨_, _, h⟩ => ⟨ha, hb, h⟩

/-- Multiplication answers its draw for a NaN operand and for an infinity times a zero (R106). -/
theorem usesDrawOnlyAsAnswer_fmul : UsesDrawOnlyAsAnswer fmul := by
  intro a b
  by_cases hn : isNaN a = true ∨ isNaN b = true
  · exact .inl fun nan => fmul_of_nan nan a b hn
  · obtain ⟨ha, hb⟩ : isNaN a = false ∧ isNaN b = false := by simpa using hn
    by_cases hi : ((isInf a && isZero b) || (isZero a && isInf b)) = true
    · exact .inl fun nan => by simp [fmul, ha, hb, hi]
    · exact .inr ⟨ha, hb, fun nan nan' => by simp only [fmul, ha, hb, hi]; simp⟩

/-- Division answers its draw for a NaN operand, for two infinities and for two zeros (R107). -/
theorem usesDrawOnlyAsAnswer_fdiv : UsesDrawOnlyAsAnswer fdiv := by
  intro a b
  by_cases hn : isNaN a = true ∨ isNaN b = true
  · exact .inl fun nan => fdiv_of_nan nan a b hn
  · obtain ⟨ha, hb⟩ : isNaN a = false ∧ isNaN b = false := by simpa using hn
    by_cases hi : (isInf a && isInf b) = true
    · exact .inl fun nan => by simp [fdiv, ha, hb, hi]
    · by_cases hz : (isZero a && isZero b) = true
      · exact .inl fun nan => by simp [fdiv, ha, hb, hz]
      · exact .inr ⟨ha, hb, fun nan nan' => by simp only [fdiv, ha, hb, hi, hz]; simp⟩

section
variable {a a' b b' : F32} {n n' : Nat}

theorem fadd_sameUpToNaN (ha : sameUpToNaN a a') (hb : sameUpToNaN b b') :
    sameUpToNaN (fadd (nanDraw n) a b) (fadd (nanDraw n') a' b') := usesDrawOnlyAsAnswer_fadd.sameUpToNaN ha hb n n'

theorem fsub_sameUpToNaN (ha : sameUpToNaN a a') (hb : sameUpToNaN b b') :
    sameUpToNaN (fsub (nanDraw n) a b) (fsub (nanDraw n') a' b') := usesDrawOnlyAsAnswer_fsub.sameUpToNaN ha hb n n'

theorem fmul_sameUpToNaN (ha : sameUpToNaN a a') (hb : sameUpToNaN b b') :
    sameUpToNaN (fmul (nanDraw n) a b) (fmul (nanDraw n') a' b') := usesDrawOnlyAsAnswer_fmul.sameUpToNaN ha hb n n'

theorem fdiv_sameUpToNaN (ha : sameUpToNaN a a') (hb : sameUpToNaN b b') :
    sameUpToNaN (fdiv (nanDraw n) a b) (fdiv (nanDraw n') a' b') := usesDrawOnlyAsAnswer_fdiv.sameUpToNaN ha hb n n'

theorem fneg_sameUpToNaN (ha : sameUpToNaN a a') : sameUpToNaN (fneg (nanDraw n) a) (fneg (nanDraw n') a') := by
  rcases ha with rfl | ⟨ha, ha'⟩
  · cases hn : isNaN a with
    | true => exact .inr ⟨by simp [fneg_of_nan _ _ hn], by simp [fneg_of_nan _ _ hn]⟩
    | false => exact .inl (by simp [fneg, hn])
  · exact .inr ⟨by simp [fneg_of_nan _ _ ha], by simp [fneg_of_nan _ _ ha']⟩

/-- R117: a configuration function depends on its argument alone, so on NaN arguments of two patterns it must be known to
give a NaN. -/
theorem applyConfig_sameUpToNaN {f : F32 → F32} (ha : sameUpToNaN a a')
    (hf : (∀ x, isNaN x = true → isNaN (f x) = true) ∨ isNaN a = false) :
    sameUpToNaN (applyConfig f (nanDraw n) a) (applyConfig f (nanDraw n') a') := by
  have hcases : a = a' ∨ isNaN (f a) = true ∧ isNaN (f a') = true := by
    rcases hf with hf | hna
    · exact ha.imp_right fun ⟨h, h'⟩ => ⟨hf a h, hf a' h'⟩
    · exact .inl (eq_of_sameUpToNaN ha hna)
  rcases hcases with rfl | ⟨h, h'⟩
  · cases hn : isNaN (f a) with
    | true => exact .inr ⟨by simp [applyConfig, hn], by simp [applyConfig, hn]⟩
    | false => exact .inl (by simp [applyConfig, hn])
  · exact .inr ⟨by simp [applyConfig, h], by simp [applyConfig, h']⟩

end

theorem sameSvf_refl (f : Svf) : sameSvf f f := by simp [sameSvf]
theorem sameHistory_refl (h : History) : sameHistory h h := by simp [sameHistory]
theorem sameCoefs_refl (c : Coefs) : sameCoefs c c := by simp [sameCoefs]

/-- R171 with R113: the next SVF registers, up to NaN patterns, depend on the registers up to NaN patterns. -/
theorem svfNext_sameSvf {f g : Svf} (h : sameSvf f g) (n n' : Nat) (input wct q : F32) :
    sameSvf (svfNext n f input wct q) (svfNext n' g input wct q) := by
  obtain ⟨hz1, hz2, -, -, -⟩ := h
  have hr := sameUpToNaN_refl
  have hlow := fadd_sameUpToNaN (n := n + 3) (n' := n' + 3)
    (fmul_sameUpToNaN (n := n + 2) (n' := n' + 2) (hr wct) hz2) hz1
  have hfb := fneg_sameUpToNaN (n := n + 1) (n' := n' + 1) (fmul_sameUpToNaN (n := n) (n' := n') (hr q) hz2)
  have hhigh := fadd_sameUpToNaN (n := n + 5) (n' := n' + 5)
    (fsub_sameUpToNaN (n := n + 4) (n' := n' + 4) (hr input) hlow) hfb
  have hband := fadd_sameUpToNaN (n := n + 7) (n' := n' + 7)
    (fmul_sameUpToNaN (n := n + 6) (n' := n' + 6) (hr wct) hhigh) hz2
  exact ⟨hlow, hband, hlow, hz2, hhigh⟩

/-- R131 with R113: the sample, up to NaN patterns, depends on the biquad's registers up to NaN patterns. -/
theorem biquadOutput_sameUpToNaN {b c : Biquad} (hh : sameHistory b.hist c.hist) (hc : sameCoefs b.coef c.coef)
    (n n' : Nat) (x0 : F32) : sameUpToNaN (biquadOutput n b x0) (biquadOutput n' c x0) := by
  obtain ⟨hx1, hx2, hy1, hy2⟩ := hh
  obtain ⟨hb0, hb1, hb2, ha1, ha2⟩ := hc
  exact fsub_sameUpToNaN (fsub_sameUpToNaN (fadd_sameUpToNaN (fadd_sameUpToNaN (fmul_sameUpToNaN hb0 (sameUpToNaN_refl x0))
    (fmul_sameUpToNaN hb1 hx1)) (fmul_sameUpToNaN hb2 hx2)) (fmul_sameUpToNaN ha1 hy1)) (fmul_sameUpToNaN ha2 hy2)

theorem angularCutoff_sameUpToNaN (n n' : Nat) (f0 sampleRate : F32) :
    sameUpToNaN (angularCutoff n f0 sampleRate) (angularCutoff n' f0 sampleRate) :=
  fdiv_sameUpToNaN (fmul_sameUpToNaN (sameUpToNaN_refl twoPi) (sameUpToNaN_refl f0)) (sameUpToNaN_refl sampleRate)

/-- R134 after `SIN` and `COS`: the coefficients, up to NaN patterns, depend on the sine and cosine up to NaN patterns. -/
theorem normalizedCoefs_sameCoefs {sw sw' cw cw' : F32} (hs : sameUpToNaN sw sw') (hc : sameUpToNaN cw cw') (n n' : Nat)
    (q : F32) : sameCoefs (normalizedCoefs n sw cw q) (normalizedCoefs n' sw' cw' q) := by
  have hr := sameUpToNaN_refl
  have halpha := fdiv_sameUpToNaN (n := n + 1) (n' := n' + 1) hs
    (fmul_sameUpToNaN (n := n) (n' := n') (hr two) (hr q))
  have ht := fsub_sameUpToNaN (n := n + 2) (n' := n' + 2) (hr one) hc
  have hb0u := fdiv_sameUpToNaN (n := n + 3) (n' := n' + 3) ht (hr two)
  have ha0 := fadd_sameUpToNaN (n := n + 4) (n' := n' + 4) (hr one) halpha
  have ha1u := fmul_sameUpToNaN (n := n + 5) (n' := n' + 5) (hr minusTwo) hc
  have ha2u := fsub_sameUpToNaN (n := n + 6) (n' := n' + 6) (hr one) halpha
  exact ⟨fdiv_sameUpToNaN hb0u ha0, fdiv_sameUpToNaN ht ha0, fdiv_sameUpToNaN hb0u ha0, fdiv_sameUpToNaN ha1u ha0,
    fdiv_sameUpToNaN ha2u ha0⟩

/-- R117's proviso for a design: `SIN` and `COS` give a NaN for every NaN, or this `w0` is not a NaN. -/
def DesignIsDrawFree (sin cos : F32 → F32) (f0 sampleRate : F32) : Prop :=
  (∀ x, isNaN x = true → isNaN (sin x) = true ∧ isNaN (cos x) = true) ∨ isNaN (angularCutoff 0 f0 sampleRate) = false

/-- R134 with R113 and R117: under the proviso a design is the same at all draw indices, up to NaN patterns. -/
theorem designLowpass_sameCoefs {sin cos : F32 → F32} {f0 sampleRate : F32} (h : DesignIsDrawFree sin cos f0 sampleRate)
    (n n' : Nat) (q : F32) : sameCoefs (designLowpass sin cos n f0 q sampleRate) (designLowpass sin cos n' f0 q sampleRate) := by
  have hw0 := angularCutoff_sameUpToNaN n n' f0 sampleRate
  have hnan : isNaN (angularCutoff 0 f0 sampleRate) = false → isNaN (angularCutoff n f0 sampleRate) = false := fun h0 =>
    eq_of_sameUpToNaN (angularCutoff_sameUpToNaN 0 n f0 sampleRate) h0 ▸ h0
  exact normalizedCoefs_sameCoefs (applyConfig_sameUpToNaN hw0 (h.imp (fun hf x hx => (hf x hx).1) hnan))
    (applyConfig_sameUpToNaN hw0 (h.imp (fun hf x hx => (hf x hx).2) hnan)) _ _ q

end Sys2Proof.Machine
end

section
/-! The statements of the state family (10_state.md): reset, ownership of the registers, and independence of the components. -/

namespace Sys2Proof.Machine

/-- R27: after a reset the ten registers 0 to 3 and 9 to 14 are `+0`. -/
theorem afterReset_readIndex_zero (n : Nat) (inputs : List HostEvent) :
    ∀ k ∈ [0, 1, 2, 3, 9, 10, 11, 12, 13, 14], (State.afterReset n inputs).readIndex k = some 0x00000000#32 := by
  intro k hk
  fin_cases hk <;> rfl

/-- R27: after a reset registers 4 to 8 are this reset's `COEF_RESET`. -/
theorem afterReset_readIndex_coef (n : Nat) (inputs : List HostEvent) (k : Fin 5) :
    (State.afterReset n inputs).readIndex (4 + k.val) = some (Config.coefReset n k) := by
  fin_cases k <;> rfl

/-- Settles O11: `State.reset` is the reset at draw index 0. -/
theorem resetLeavesZerosAndOpenCoefficients : Obligations.ResetLeavesZerosAndOpenCoefficients :=
  ⟨afterReset_readIndex_zero 0 [], afterReset_readIndex_coef 0 []⟩

/-- Settles O16: both `SVF.low` and `SVF.z1` are `+0`, and nothing is delivered. -/
theorem resetMeetsTheInvariant : Obligations.ResetMeetsTheInvariant := by
  have hrsp : State.reset.rsp = none := rfl
  refine ⟨⟨rfl, fun r hr => ?_⟩, hrsp⟩
  rw [hrsp] at hr
  cases hr

/-- R20's column "written by": a register that the command does not write keeps its bits. -/
theorem CommandEffect.read_of_not_writes {i : Instr} {s t : State} (e : CommandEffect i s t) {r : RegName}
    (hr : writes i r = false) : t.read r = s.read r := by
  cases r with
  | bqX1 | bqX2 | bqY1 | bqY2 =>
    have hist : t.bq.hist = s.bq.hist := e.hist.trans (historyAfter_of_ne (by rintro x0 rfl; cases hr) _ _)
    simp only [State.read, hist]
  | bqB0 | bqB1 | bqB2 | bqA1 | bqA2 =>
    have coef : t.bq.coef = s.bq.coef := e.coef.trans (coefsAfter_of_ne (by rintro f0 q sampleRate rfl; cases hr) _ _)
    simp only [State.read, coef]
  | svfZ1 | svfZ2 | svfLow | svfMid | svfHigh =>
    have svf : t.svf = s.svf := e.svf.trans (svfAfter_of_ne (by rintro input wct q rfl; cases hr) _ _)
    simp only [State.read, svf]
  | ud0V =>
    have ud0 : t.ud0 = s.ud0 := e.ud0.trans (unitDelayAfter_of_ne (by rintro newValue rfl; cases hr) _)
    simp only [State.read, ud0]

theorem answerIllegal_read (s : State) (r : RegName) : s.answerIllegal.read r = s.read r := by cases r <;> rfl

/-- Settles O20, from what each command does to each component. -/
theorem commandsWriteOnlyTheirOwnRegisters : Obligations.CommandsWriteOnlyTheirOwnRegisters := by
  constructor
  · intro i s t h
    have e := exec_effect h
    exact ⟨fun r hr => e.read_of_not_writes hr, e.inputs, e.draws⟩
  · intro w s t hw h
    obtain ⟨e, he⟩ := decode_illegal_of_not_legalWord hw
    obtain rfl := eq_answerIllegal_of_runWord he h
    exact ⟨answerIllegal_read s, rfl, rfl⟩

@[simp] theorem rspD1_respond (st : Status) (d0 d1 d2 : F32) : rspD1 (respond st d0 d1 d2) = d1 := by
  apply BitVec.eq_of_getLsbD_eq
  intro k hk
  simp only [rspD1, respond, BitVec.getLsbD_extractLsb', BitVec.getLsbD_append]
  simp [hk, show ¬ 32 + k < 32 by omega]

/-- R172: SVF.STEP leaves in `mid`, and answers in `D1`, the `z2` of before the step. -/
theorem execSvfStep_mid {input wct q : F32} {s t : State} (h : exec (.svfStep input wct q) s = .next t) :
    t.svf.mid = s.svf.z2 ∧ ∀ r ∈ t.rsp, rspD1 r = s.svf.z2 := by
  cases h
  refine ⟨rfl, fun r hr => ?_⟩
  cases hr
  exact rspD1_respond _ _ _ _

/-- Settles O39: the commands between leave `z2`, and the second step's `mid` is the `z2` it finds. -/
theorem midIsTheBandOfTheStepBefore : Obligations.MidIsTheBandOfTheStepBefore := by
  intro s t u v in1 wct1 q1 in2 wct2 q2 between rs hbetween _ hu hv
  rw [← runWords_svf_of_ne hbetween hu]
  exact execSvfStep_mid hv

/-- The biquad's registers equal up to the pattern of NaNs. -/
def sameBiquad (b c : Biquad) : Prop := sameHistory b.hist c.hist ∧ sameCoefs b.coef c.coef

theorem historyAfter_sameHistory {b c : Biquad} (h : sameBiquad b c) (n n' : Nat) (i : Instr) :
    sameHistory (historyAfter n b i) (historyAfter n' c i) := by
  cases i with
  | bqProc x0 =>
    obtain ⟨hx1, -, hy1, -⟩ := h.1
    exact ⟨sameUpToNaN_refl x0, hx1, biquadOutput_sameUpToNaN h.1 h.2 n n' x0, hy1⟩
  | _ => exact h.1

theorem coefsAfter_sameCoefs {c d : Coefs} (h : sameCoefs c d) (n n' : Nat) {i : Instr}
    (hi : ∀ f0 q sampleRate, i = .bqDsgn f0 q sampleRate → DesignIsDrawFree Config.sin Config.cos f0 sampleRate) :
    sameCoefs (coefsAfter n c i) (coefsAfter n' d i) := by
  cases i with
  | bqDsgn f0 q sampleRate => exact designLowpass_sameCoefs (hi f0 q sampleRate rfl) n n' q
  | _ => exact h

theorem svfAfter_sameSvf {f g : Svf} (h : sameSvf f g) (n n' : Nat) (i : Instr) :
    sameSvf (svfAfter n f i) (svfAfter n' g i) := by
  cases i with
  | svfStep input wct q => exact svfNext_sameSvf h n n' input wct q
  | _ => exact h

-- One command word, run from two states that agree on a component: they still agree. Each word of no interest to a component
-- leaves it.
section
variable {w : CmdWord} {s s' t t' : State}

theorem runWord_sameSvf (h : sameSvf s.svf s'.svf) (ht : runWord w s = .next t) (ht' : runWord w s' = .next t') :
    sameSvf t.svf t'.svf := by
  cases hd : decode w with
  | legal i =>
    rw [(runWord_effect hd ht).svf, (runWord_effect hd ht').svf]
    exact svfAfter_sameSvf h _ _ i
  | illegal e =>
    rw [eq_answerIllegal_of_runWord hd ht, eq_answerIllegal_of_runWord hd ht']
    exact h

theorem runWord_ud0_eq (h : s.ud0 = s'.ud0) (ht : runWord w s = .next t) (ht' : runWord w s' = .next t') :
    t.ud0 = t'.ud0 := by
  cases hd : decode w with
  | legal i => rw [(runWord_effect hd ht).ud0, (runWord_effect hd ht').ud0, h]
  | illegal e =>
    rw [eq_answerIllegal_of_runWord hd ht, eq_answerIllegal_of_runWord hd ht']
    exact h

theorem runWord_sameBiquad (h : sameBiquad s.bq s'.bq)
    (hw : ∀ f0 q sampleRate, encode (.bqDsgn f0 q sampleRate) = w → DesignIsDrawFree Config.sin Config.cos f0 sampleRate)
    (ht : runWord w s = .next t) (ht' : runWord w s' = .next t') : sameBiquad t.bq t'.bq := by
  cases hd : decode w with
  | legal i =>
    obtain ⟨hword, -⟩ := encode_of_decode hd
    have e := runWord_effect hd ht
    have e' := runWord_effect hd ht'
    rw [sameBiquad, e.hist, e'.hist, e.coef, e'.coef]
    refine ⟨historyAfter_sameHistory h _ _ i, coefsAfter_sameCoefs h.2 _ _ ?_⟩
    rintro f0 q sampleRate rfl
    exact hw f0 q sampleRate hword
  | illegal e =>
    rw [eq_answerIllegal_of_runWord hd ht, eq_answerIllegal_of_runWord hd ht']
    exact h

theorem runWord_svf_of_not_isSvfWord (hw : isSvfWord w = false) (ht : runWord w s = .next t) : t.svf = s.svf := by
  cases hd : decode w with
  | legal i =>
    refine (runWord_effect hd ht).svf.trans (svfAfter_of_ne ?_ _ _)
    rintro input wct q rfl
    simp [isSvfWord, hd] at hw
  | illegal e => rw [eq_answerIllegal_of_runWord hd ht, answerIllegal_svf]

theorem runWord_ud0_of_not_isUnitDelayWord (hw : isUnitDelayWord w = false) (ht : runWord w s = .next t) :
    t.ud0 = s.ud0 := by
  cases hd : decode w with
  | legal i =>
    refine (runWord_effect hd ht).ud0.trans (unitDelayAfter_of_ne ?_ _)
    rintro newValue rfl
    simp [isUnitDelayWord, hd] at hw
  | illegal e => rw [eq_answerIllegal_of_runWord hd ht, answerIllegal_ud0]

theorem runWord_bq_of_not_isBiquadWord (hw : isBiquadWord w = false) (ht : runWord w s = .next t) :
    t.bq.hist = s.bq.hist ∧ t.bq.coef = s.bq.coef := by
  cases hd : decode w with
  | legal i =>
    have e := runWord_effect hd ht
    constructor
    · refine e.hist.trans (historyAfter_of_ne ?_ _ _)
      rintro x0 rfl
      simp [isBiquadWord, hd] at hw
    · refine e.coef.trans (coefsAfter_of_ne ?_ _ _)
      rintro f0 q sampleRate rfl
      simp [isBiquadWord, hd] at hw
  | illegal e => rw [eq_answerIllegal_of_runWord hd ht, answerIllegal_bq]; exact ⟨rfl, rfl⟩

end

-- A whole stream, and the component's own words of it, run from one state.
section
variable {ws : List CmdWord} {s t u : State} {rs qs : List RspWord}

theorem runWords_filter_sameSvf (ht : runWords ws s = some (t, rs)) (hu : runWords (ws.filter isSvfWord) s = some (u, qs)) :
    sameSvf t.svf u.svf :=
  runWords_filter_related (Rel := fun x y => sameSvf x.svf y.svf)
    (fun _ _ _ _ _ _ h hx hy => runWord_sameSvf h hx hy)
    (fun _ _ hk _ _ _ h hx => runWord_svf_of_not_isSvfWord hk hx ▸ h)
    (sameSvf_refl s.svf) ht hu

theorem runWords_filter_ud0_eq (ht : runWords ws s = some (t, rs))
    (hu : runWords (ws.filter isUnitDelayWord) s = some (u, qs)) : t.ud0 = u.ud0 :=
  runWords_filter_related (Rel := fun x y => x.ud0 = y.ud0)
    (fun _ _ _ _ _ _ h hx hy => runWord_ud0_eq h hx hy)
    (fun _ _ hk _ _ _ h hx => (runWord_ud0_of_not_isUnitDelayWord hk hx).trans h)
    rfl ht hu

theorem runWords_filter_sameBiquad
    (hws : ∀ f0 q sampleRate, encode (.bqDsgn f0 q sampleRate) ∈ ws → DesignIsDrawFree Config.sin Config.cos f0 sampleRate)
    (ht : runWords ws s = some (t, rs)) (hu : runWords (ws.filter isBiquadWord) s = some (u, qs)) : sameBiquad t.bq u.bq := by
  refine runWords_filter_related (Rel := fun x y => sameBiquad x.bq y.bq) ?_ ?_
    ⟨sameHistory_refl s.bq.hist, sameCoefs_refl s.bq.coef⟩ ht hu
  · intro w hw x x' y y' h hx hx'
    refine runWord_sameBiquad h (fun f0 q sampleRate hword => hws f0 q sampleRate ?_) hx hx'
    rwa [hword]
  · intro w _ hk x x' y h hx
    obtain ⟨hist, coef⟩ := runWord_bq_of_not_isBiquadWord hk hx
    rw [sameBiquad, hist, coef]
    exact h

end

/-- Settles O41, one component at a time: its own words keep the agreement of the two runs, and every other word leaves it. -/
theorem interleavedComponentsDoNotInterfere : Obligations.InterleavedComponentsDoNotInterfere := by
  intro ws s
  obtain ⟨t, rs, ht⟩ := runWords_completes ws s
  obtain ⟨u, qs, hu⟩ := runWords_completes (ws.filter isSvfWord) s
  obtain ⟨v, ps, hv⟩ := runWords_completes (ws.filter isUnitDelayWord) s
  obtain ⟨b, os, hb⟩ := runWords_completes (ws.filter isBiquadWord) s
  refine ⟨t, u, v, b, rs, qs, ps, os, ht, hu, hv, hb, runWords_filter_sameSvf ht hu, runWords_filter_ud0_eq ht hv,
    fun hnan => runWords_filter_sameBiquad (fun f0 q sampleRate hmem => ?_) ht hb⟩
  exact hnan.imp_right fun hw0 => hw0 f0 q sampleRate hmem

end Sys2Proof.Machine
end

section
/-! The fold of `exec` over a command sequence (20_memory.md R57 (a)): how it composes, what the machine's own steps have to do
with it, and what the port's clock edges have to do with it (30_encoding.md R80, last sentence). -/

namespace Sys2Proof.Machine

section
variable {w : CmdWord} {ws vs : List CmdWord} {s t u : State} {r : RspWord} {rs qs : List RspWord}

theorem runWords_cons_of_runWord (h : runWord w s = .next t) (hr : t.rsp = some r) (hu : runWords ws t = some (u, rs)) :
    runWords (w :: ws) s = some (u, r :: rs) := by
  simp [runWords, h, hr, hu]

/-- The fold takes the first word of a sequence, then the others; the first response is that word's. -/
theorem runWords_cons_cases (h : runWords (w :: ws) s = some (u, rs)) :
    ∃ t r qs, runWord w s = .next t ∧ t.rsp = some r ∧ runWords ws t = some (u, qs) ∧ rs = r :: qs := by
  obtain ⟨t, qs, ht, hu⟩ := runWords_cons h
  obtain ⟨t', ht', hsome⟩ := runWord_completes w s
  cases ht.symm.trans ht'
  obtain ⟨r, hr⟩ := Option.isSome_iff_exists.mp hsome
  have hcons := runWords_cons_of_runWord ht hr hu
  cases h.symm.trans hcons
  exact ⟨t, r, qs, ht, hr, hu, rfl⟩

theorem runWords_append (ht : runWords ws s = some (t, rs)) (hu : runWords vs t = some (u, qs)) :
    runWords (ws ++ vs) s = some (u, rs ++ qs) := by
  induction ws generalizing s rs with
  | nil => cases ht; exact hu
  | cons w ws ih =>
    obtain ⟨s', r, rs', hw, hr, hws, rfl⟩ := runWords_cons_cases ht
    exact runWords_cons_of_runWord hw hr (ih hws)

/-- One response per command. -/
theorem runWords_length (h : runWords ws s = some (t, rs)) : rs.length = ws.length := by
  induction ws generalizing s rs with
  | nil => cases h; rfl
  | cons w ws ih =>
    obtain ⟨s', r, rs', -, -, hws, rfl⟩ := runWords_cons_cases h
    simp [ih hws]

/-- The fold neither reads nor changes the host's stream. -/
theorem runWords_withInputs (h : runWords ws s = some (t, rs)) (rest : List HostEvent) :
    runWords ws (s.withInputs rest) = some (t.withInputs rest, rs) := by
  induction ws generalizing s rs with
  | nil => cases h; rfl
  | cons w ws ih =>
    obtain ⟨s', r, rs', hw, hr, hws, rfl⟩ := runWords_cons_cases h
    exact runWords_cons_of_runWord (runWord_withInputs hw rest).1 hr (ih hws)

theorem runSteps_succ_of_step {k : Nat} (h : step s = .next t) (hr : t.rsp = some r) (hu : runSteps k t = some (u, rs)) :
    runSteps (k + 1) s = some (u, r :: rs) := by
  simp [runSteps, h, hr, hu]

/-- With the words first in the host's stream, the machine's steps are the fold, and the rest of the stream is left. -/
theorem runSteps_of_runWords (h : runWords ws s = some (t, rs)) (rest : List HostEvent) :
    runSteps ws.length (s.withInputs (ws.map .command ++ rest)) = some (t.withInputs rest, rs) := by
  induction ws generalizing s rs with
  | nil => cases h; rfl
  | cons w ws ih =>
    obtain ⟨s', r, rs', hw, hr, hws, rfl⟩ := runWords_cons_cases h
    have hstep : step (s.withInputs ((w :: ws).map .command ++ rest)) = .next (s'.withInputs (ws.map .command ++ rest)) :=
      (step_of_command rfl).trans (runWord_withInputs hw _).1
    exact runSteps_succ_of_step hstep hr (ih hws)

end

/-- Settles O15: the fold is total and composes, and the steps on a stream that begins with the words are that fold. -/
theorem commandSequencesComposeInOrder : Obligations.CommandSequencesComposeInOrder := by
  constructor
  · intro ws vs s
    obtain ⟨t, rs, ht⟩ := runWords_completes ws s
    obtain ⟨u, qs, hu⟩ := runWords_completes vs t
    exact ⟨t, u, rs, qs, ht, hu, runWords_append ht hu, runWords_length ht⟩
  · intro ws rest s
    obtain ⟨t, rs, ht⟩ := runWords_completes ws s
    exact ⟨t.withInputs rest, rs, runWords_withInputs ht rest, runSteps_of_runWords ht rest, rfl⟩

/-- The responses that are owed to the host: that of the command in flight, if there is one (R80). -/
def PortState.pending (p : PortState) : List RspWord := (p.inFlight.map InFlight.rsp).toList

section
variable {p q : PortState} {i : PinsIn} {f : InFlight}

theorem pending_of_idle (h : p.inFlight = none) : p.pending = [] := by simp [PortState.pending, h]

theorem pending_of_inFlight (h : p.inFlight = some f) : p.pending = [f.rsp] := by simp [PortState.pending, h]

theorem acceptedAt_of_idle (hr : i.rst = false) (h : p.inFlight = none) :
    p.acceptedAt i = if i.cmdValid then [i.cmd] else [] := by
  simp [PortState.acceptedAt, PortState.pins, hr, h]

theorem acceptedAt_of_inFlight (hr : i.rst = false) (h : p.inFlight = some f) : p.acceptedAt i = [] := by
  simp [PortState.acceptedAt, PortState.pins, hr, h]

theorem deliveredAt_of_idle (hr : i.rst = false) (h : p.inFlight = none) : p.deliveredAt i = [] := by
  simp [PortState.deliveredAt, PortState.pins, hr, h]

theorem deliveredAt_of_offering (hr : i.rst = false) (h : p.inFlight = some f) (hw : f.wait = 0) :
    p.deliveredAt i = if i.rspReady then [f.rsp] else [] := by
  simp [PortState.deliveredAt, PortState.pins, hr, h, hw]

theorem deliveredAt_of_waiting (hr : i.rst = false) (h : p.inFlight = some f) (hw : f.wait ≠ 0) : p.deliveredAt i = [] := by
  simp [PortState.deliveredAt, PortState.pins, hr, h, hw]

/-- One edge without a reset: what it accepts is folded into the registers, and what is owed before it and what it adds are
delivered at it or owed after it, in order. -/
theorem portEdge_refines (hr : i.rst = false) (h : portEdge p i = .next q) :
    ∃ rs, runWords (p.acceptedAt i) p.core = some (q.core, rs) ∧ p.pending ++ rs = p.deliveredAt i ++ q.pending := by
  obtain ⟨-, ⟨hf, hc, rfl⟩ | ⟨hf, hc, ha⟩ | ⟨f, hf, hw, rfl⟩ | ⟨f, hf, hw, rfl⟩⟩ := portEdge_cases hr h
  · refine ⟨[], by simp [acceptedAt_of_idle hr hf, hc, runWords], ?_⟩
    simp [deliveredAt_of_idle hr hf, pending_of_idle, hf]
  · obtain ⟨t, r, ht, hrsp, ha'⟩ := accept_eq p i.cmd
    cases ha.symm.trans ha'
    refine ⟨[r], ?_, ?_⟩
    · rw [acceptedAt_of_idle hr hf, if_pos hc]
      exact runWords_cons_of_runWord ht hrsp rfl
    · rw [deliveredAt_of_idle hr hf, pending_of_idle hf, pending_of_inFlight rfl]
  · refine ⟨[], by rw [acceptedAt_of_inFlight hr hf]; rfl, ?_⟩
    rw [deliveredAt_of_offering hr hf hw, pending_of_inFlight hf]
    cases hready : i.rspReady with
    | true => simp [pending_of_idle]
    | false => simp [pending_of_inFlight (f := f)]
  · refine ⟨[], by rw [acceptedAt_of_inFlight hr hf]; rfl, ?_⟩
    rw [deliveredAt_of_waiting hr hf hw, pending_of_inFlight hf, pending_of_inFlight rfl]
    rfl

/-- What a run of edges comes to is what its first edge does, before what the others come to. -/
theorem portRun_cons {edges : List PinsIn} {t : PortTrace} (h : portRun p (i :: edges) = some t) :
    ∃ q v, portEdge p i = .next q ∧ portRun q edges = some v ∧ t.final = v.final ∧
      t.accepted = p.acceptedAt i ++ v.accepted ∧ t.delivered = p.deliveredAt i ++ v.delivered := by
  unfold portRun at h
  cases he : portEdge p i with
  | next q =>
    rw [he] at h
    obtain ⟨v, hv, rfl⟩ := Option.map_eq_some_iff.mp h
    exact ⟨q, v, rfl, hv, rfl, rfl, rfl⟩
  | fault e => cases e
  | refused e => simp [he] at h

end

/-- Settles O52, by induction on the edges: each edge refines the fold, and the folds compose. -/
theorem pinsGiveTheFunctionalModel : Obligations.PinsGiveTheFunctionalModel := by
  intro edges
  induction edges with
  | nil =>
    intro p t _ h
    cases h
    exact ⟨[], rfl, List.append_nil _⟩
  | cons i edges ih =>
    intro p t hrst h
    obtain ⟨hr, hrest⟩ := List.forall_mem_cons.mp hrst
    obtain ⟨q, v, hedge, hv, hfinal, haccepted, hdelivered⟩ := portRun_cons h
    obtain ⟨rs, hcore, howed⟩ := portEdge_refines hr hedge
    obtain ⟨qs, hcore', howed'⟩ := ih q v hrest hv
    rw [hfinal, haccepted, hdelivered]
    refine ⟨rs ++ qs, runWords_append hcore hcore', ?_⟩
    calc p.pending ++ (rs ++ qs) = (p.pending ++ rs) ++ qs := (List.append_assoc ..).symm
      _ = p.deliveredAt i ++ (q.pending ++ qs) := by rw [howed, List.append_assoc]
      _ = p.deliveredAt i ++ (v.delivered ++ v.final.pending) := congrArg _ howed'
      _ = (p.deliveredAt i ++ v.delivered) ++ v.final.pending := (List.append_assoc ..).symm

end Sys2Proof.Machine
end

section
/-! The statements of the encoding family (30_encoding.md) about words: the decoder and the encoder, R74's checks, R73's rows. -/

namespace Sys2Proof

open Machine

/-- Settles O1, by the round trip `decode_encode`: the fields of a packed word are the fields it was packed from. -/
theorem decodeOfEncodeIsTheInstruction : Obligations.DecodeOfEncodeIsTheInstruction := fun _ hwf => decode_encode hwf

/-- Settles O3: the decoder's checks leave no bit of the word free. -/
theorem legalWordIsTheEncodingOfItsCommand : Obligations.LegalWordIsTheEncodingOfItsCommand := fun _ _ h => encode_of_decode h

theorem decode_eq_legal_iff {w : CmdWord} {i : Instr} : decode w = .legal i ↔ encode i = w ∧ i.wf = true := by
  refine ⟨encode_of_decode, ?_⟩
  rintro ⟨rfl, hwf⟩
  exact decode_encode hwf

/-- Settles O5: each of the six words is the encoding of the command listed for it. -/
theorem workedWordsDecodeAsListed : Obligations.WorkedWordsDecodeAsListed := by
  refine ⟨?_, ?_, ?_, ?_, ?_, ?_⟩ <;> exact decode_eq_legal_iff.mpr (by decide)

/-- A word that passes R74's checks is decoded, opcode by opcode. -/
theorem decodeOp_of_legalWord {w : CmdWord} (h : LegalWord w) : ∃ i, decodeOp w = .legal i := by
  obtain ⟨⟨hlow, hhigh⟩, -, hA, hBC, hindex⟩ := h
  unfold decodeOp
  split
  case h_2 | h_5 => exact ⟨_, decodeF3_legal.mpr rfl⟩
  case h_1 hop | h_4 hop | h_9 hop | h_10 hop => exact ⟨_, decodeF1_legal.mpr ⟨hBC (by simp [hop]), rfl⟩⟩
  case h_3 hop | h_6 hop | h_7 hop | h_8 hop =>
    exact ⟨_, decodeF0_legal.mpr ⟨⟨hA (by simp [hop]), hBC (by simp [hop])⟩, rfl⟩⟩
  case h_11 hop => exact ⟨_, decodeFI_legal.mpr ⟨hBC (by simp [hop]), hindex hop, rfl⟩⟩
  case h_12 =>
    exfalso
    interval_cases (opField w).toNat <;> contradiction

/-- Settles O2: a legal word is a well-formed command's word, which passes the checks; a word that passes them is decoded. -/
theorem legalExactlyWhenEveryCheckPasses : Obligations.LegalExactlyWhenEveryCheckPasses := by
  intro w
  constructor
  · rintro ⟨i, hi⟩
    obtain ⟨rfl, hwf⟩ := encode_of_decode hi
    exact legalWord_encode hwf
  · intro h
    obtain ⟨i, hi⟩ := decodeOp_of_legalWord h
    obtain ⟨-, hrsv, -⟩ := h
    exact ⟨i, decode_legal.mpr ⟨hrsv, hi⟩⟩

theorem eq_packCmd_iff {w : CmdWord} {op : BitVec 4} {a b c : BitVec 32} : w = packCmd op a b c ↔
    opField w = op ∧ rsvField w = 0 ∧ fieldA w = a ∧ fieldB w = b ∧ fieldC w = c := by
  constructor
  · rintro rfl; simp
  · rintro ⟨rfl, hrsv, rfl, rfl, rfl⟩; exact (packCmd_fields w hrsv).symm

section
variable (w m : CmdWord)
@[simp] theorem opField_and : opField (w &&& m) = opField w &&& opField m := BitVec.extractLsb'_and
@[simp] theorem rsvField_and : rsvField (w &&& m) = rsvField w &&& rsvField m := BitVec.extractLsb'_and
@[simp] theorem fieldA_and : fieldA (w &&& m) = fieldA w &&& fieldA m := BitVec.extractLsb'_and
@[simp] theorem fieldB_and : fieldB (w &&& m) = fieldB w &&& fieldB m := BitVec.extractLsb'_and
@[simp] theorem fieldC_and : fieldC (w &&& m) = fieldC w &&& fieldC m := BitVec.extractLsb'_and
end

section
variable {w : CmdWord} {op : BitVec 4}

/-- A mask that covers the opcode and the reserved bits fixes them; of each operand field it fixes the bits it covers. -/
theorem and_eq_packCmd_iff {m : CmdWord} (hop : opField m = BitVec.allOnes 4) (hrsv : rsvField m = BitVec.allOnes 28) :
    w &&& m = packCmd op 0 0 0 ↔ opField w = op ∧ rsvField w = 0 ∧
      fieldA w &&& fieldA m = 0 ∧ fieldB w &&& fieldB m = 0 ∧ fieldC w &&& fieldC m = 0 := by
  rw [eq_packCmd_iff, opField_and, rsvField_and, fieldA_and, fieldB_and, fieldC_and, hop, hrsv, BitVec.and_allOnes,
    BitVec.and_allOnes]

theorem and_ones_eq_zero_iff {x : BitVec 32} : x &&& 0xFFFFFFFF#32 = 0 ↔ x = 0 := by
  rw [show 0xFFFFFFFF#32 = BitVec.allOnes 32 from rfl, BitVec.and_allOnes]

/-- `F0`: the mask leaves no bit free. -/
theorem and_maskF0_eq_iff : w &&& 0xFFFFFFFFFFFFFFFFFFFFFFFFFFFFFFFF#128 = packCmd op 0 0 0 ↔ packCmd op 0 0 0 = w := by
  rw [show w &&& 0xFFFFFFFFFFFFFFFFFFFFFFFFFFFFFFFF#128 = w from BitVec.and_allOnes, eq_comm]

/-- `F1`: the mask leaves the first operand free. -/
theorem and_maskF1_eq_iff :
    w &&& 0xFFFFFFFF00000000FFFFFFFFFFFFFFFF#128 = packCmd op 0 0 0 ↔ ∃ a, packCmd op a 0 0 = w := by
  rw [and_eq_packCmd_iff rfl rfl, show fieldA 0xFFFFFFFF00000000FFFFFFFFFFFFFFFF#128 = 0 from rfl,
    show fieldB 0xFFFFFFFF00000000FFFFFFFFFFFFFFFF#128 = 0xFFFFFFFF#32 from rfl,
    show fieldC 0xFFFFFFFF00000000FFFFFFFFFFFFFFFF#128 = 0xFFFFFFFF#32 from rfl,
    and_ones_eq_zero_iff, and_ones_eq_zero_iff]
  simp [eq_packCmd_iff, eq_comm (b := w)]

/-- `F3`: the mask leaves the three operands free. -/
theorem and_maskF3_eq_iff :
    w &&& 0xFFFFFFFF000000000000000000000000#128 = packCmd op 0 0 0 ↔ ∃ a b c, packCmd op a b c = w := by
  rw [and_eq_packCmd_iff rfl rfl, show fieldA 0xFFFFFFFF000000000000000000000000#128 = 0 from rfl,
    show fieldB 0xFFFFFFFF000000000000000000000000#128 = 0 from rfl,
    show fieldC 0xFFFFFFFF000000000000000000000000#128 = 0 from rfl]
  simp [eq_packCmd_iff, eq_comm (b := w)]

/-- An index below 16 has no bit above the lowest four. -/
theorem and_highBits_eq_zero {index : BitVec 32} (h : index.toNat ≤ 14) : index &&& 0xFFFFFFF0#32 = 0 := by
  have hindex : index = BitVec.ofNat 32 index.toNat := by simp
  rw [hindex]
  generalize index.toNat = k at h
  interval_cases k <;> rfl

/-- `FI`: the mask leaves the lowest four bits of the index free, and the index constraint decides them. -/
theorem and_maskFI_eq_iff :
    (w &&& 0xFFFFFFFFFFFFFFF0FFFFFFFFFFFFFFFF#128 = packCmd op 0 0 0 ∧ (fieldA w).toNat ≤ 14) ↔
      ∃ index : BitVec 32, packCmd op index 0 0 = w ∧ index.toNat ≤ 14 := by
  rw [and_eq_packCmd_iff rfl rfl, show fieldA 0xFFFFFFFFFFFFFFF0FFFFFFFFFFFFFFFF#128 = 0xFFFFFFF0#32 from rfl,
    show fieldB 0xFFFFFFFFFFFFFFF0FFFFFFFFFFFFFFFF#128 = 0xFFFFFFFF#32 from rfl,
    show fieldC 0xFFFFFFFFFFFFFFF0FFFFFFFFFFFFFFFF#128 = 0xFFFFFFFF#32 from rfl,
    and_ones_eq_zero_iff, and_ones_eq_zero_iff]
  constructor
  · rintro ⟨⟨hop, hrsv, -, hb, hc⟩, hle⟩
    exact ⟨fieldA w, (eq_packCmd_iff.mpr ⟨hop, hrsv, rfl, hb, hc⟩).symm, hle⟩
  · rintro ⟨index, rfl, hle⟩
    simpa [hle] using and_highBits_eq_zero hle

/-- A command is one of the eleven forms. -/
theorem exists_instr_iff {p : Instr → Prop} : (∃ i, p i) ↔
    (∃ x0, p (.bqProc x0)) ∨ (∃ f0 q sampleRate, p (.bqDsgn f0 q sampleRate)) ∨ p .udPeek ∨
    (∃ newValue, p (.udRdadv newValue)) ∨ (∃ input wct q, p (.svfStep input wct q)) ∨ p .svfLow ∨ p .svfMid ∨ p .svfHigh ∨
    (∃ note, p (.auxN2f note)) ∨ (∃ db, p (.auxDb2lin db)) ∨ ∃ index, p (.rdreg index) := by
  constructor
  · rintro ⟨i, hi⟩
    cases i <;> grind
  · grind
end

/-- Settles O4, row by row: the mask fixes the opcode, the reserved bits and the unused fields of the row's format, and the
row's mnemonic leaves one form of command. -/
theorem opcodeRowsSelectTheirCommands : Obligations.OpcodeRowsSelectTheirCommands := by
  intro row hrow w
  simp only [decode_eq_legal_iff, exists_instr_iff]
  fin_cases hrow <;>
    simp only [encode, mnemonicOf, Instr.wf, String.reduceEq, decide_eq_true_eq, false_implies, forall_const, and_true,
      and_false, exists_false, or_false, false_or]
  · exact and_maskF1_eq_iff (op := 0x1)
  · exact and_maskF3_eq_iff (op := 0x2)
  · exact and_maskF0_eq_iff (op := 0x3)
  · exact and_maskF1_eq_iff (op := 0x4)
  · exact and_maskF3_eq_iff (op := 0x5)
  · exact and_maskF0_eq_iff (op := 0x6)
  · exact and_maskF0_eq_iff (op := 0x7)
  · exact and_maskF0_eq_iff (op := 0x8)
  · exact and_maskF1_eq_iff (op := 0x9)
  · exact and_maskF1_eq_iff (op := 0xA)
  · exact and_maskFI_eq_iff (op := 0xB)

end Sys2Proof
end

section
/-! Responses (30_encoding.md R75 to R77): the fields of a response word, what each command word is answered, and the
statements about steps that rest on it. -/

namespace Sys2Proof.Machine

-- A response word is laid out like a command word, the status in the place of the opcode (R70, R76).
section
variable (st : Status) (d0 d1 d2 : F32)

@[simp] theorem rspStatus_respond : rspStatus (respond st d0 d1 d2) = st.code := packCmd_op _ _ _ _
@[simp] theorem rspRsv_respond : rspRsv (respond st d0 d1 d2) = 0 := packCmd_rsv _ _ _ _
@[simp] theorem rspD0_respond : rspD0 (respond st d0 d1 d2) = d0 := packCmd_a _ _ _ _
@[simp] theorem rspD2_respond : rspD2 (respond st d0 d1 d2) = d2 := packCmd_c _ _ _ _

end

/-- Settles O10, field by field. -/
theorem responseWordHoldsItsFields : Obligations.ResponseWordHoldsItsFields := fun st d0 d1 d2 =>
  ⟨rspStatus_respond st d0 d1 d2, rspRsv_respond st d0 d1 d2, rspD0_respond st d0 d1 d2, rspD1_respond st d0 d1 d2,
    rspD2_respond st d0 d1 d2⟩

/-- The word that R75 prints. -/
theorem respond_errIllegal : respond .errIllegal 0 0 0 = 0x10000000_00000000_00000000_00000000#128 := by decide

theorem responseFormed_ok (d0 d1 d2 : F32) : ResponseFormed (respond .ok d0 d1 d2) :=
  ⟨rspRsv_respond _ _ _ _, .inl (rspStatus_respond _ _ _ _)⟩

theorem responseFormed_errIllegal : ResponseFormed (respond .errIllegal 0 0 0) :=
  ⟨rspRsv_respond _ _ _ _, .inr ⟨rspStatus_respond _ _ _ _, rspD0_respond _ _ _ _, rspD1_respond _ _ _ _,
    rspD2_respond _ _ _ _⟩⟩

/-- A well-formed command is answered with `OK`. -/
theorem exec_answers_ok {i : Instr} {s t : State} (hwf : i.wf = true) (h : exec i s = .next t) :
    ∃ d0 d1 d2, t.rsp = some (respond .ok d0 d1 d2) := by
  cases i with
  | rdreg index =>
    have hle : index.toNat ≤ 14 := of_decide_eq_true hwf
    rw [exec] at h
    obtain ⟨r, -, hx⟩ | ⟨hnone, -⟩ := execRdreg_cases index s
    · cases hx.symm.trans h
      exact ⟨_, _, _, rfl⟩
    · exact absurd (ofNumber_eq_none.mp hnone) (by omega)
  | _ => cases h; exact ⟨_, _, _, rfl⟩

/-- A word is answered by its status: `OK` if the decoder accepts it, else the response of R75. -/
theorem runWord_rsp {w : CmdWord} {s t : State} (h : runWord w s = .next t) :
    (LegalWord w ∧ ∃ d0 d1 d2, t.rsp = some (respond .ok d0 d1 d2)) ∨
    (¬LegalWord w ∧ t.rsp = some (respond .errIllegal 0 0 0)) := by
  by_cases hw : LegalWord w
  · obtain ⟨i, hi⟩ := (legalExactlyWhenEveryCheckPasses w).mpr hw
    obtain ⟨-, hwf⟩ := encode_of_decode hi
    exact .inl ⟨hw, exec_answers_ok hwf ((runWord_legal hi s).symm.trans h)⟩
  · obtain ⟨e, he⟩ := decode_illegal_of_not_legalWord hw
    rw [eq_answerIllegal_of_runWord he h]
    exact .inr ⟨hw, rfl⟩

/-- Settles O9: each word is run to a next state, with the response of its status. -/
theorem everyWordIsAnsweredByItsStatus : Obligations.EveryWordIsAnsweredByItsStatus := by
  intro s w
  obtain ⟨t, ht, -⟩ := runWord_completes w s
  obtain ⟨hw, d0, d1, d2, hr⟩ | ⟨hw, hr⟩ := runWord_rsp ht
  · exact ⟨t, _, ht, hr, rspRsv_respond _ _ _ _, fun _ => rspStatus_respond _ _ _ _, fun h => absurd hw h⟩
  · exact ⟨t, _, ht, hr, rspRsv_respond _ _ _ _, fun h => absurd h hw, fun _ => rspStatus_respond _ _ _ _⟩

/-- Settles O8: the decoder rejects the word, and the step only answers. -/
theorem illegalWordOnlyAnswersErrIllegal : Obligations.IllegalWordOnlyAnswersErrIllegal := by
  intro s w rest hin hw
  obtain ⟨e, he⟩ := decode_illegal_of_not_legalWord hw
  calc step s = runWord w (s.withInputs rest) := step_of_command hin
    _ = .next (s.withInputs rest).answerIllegal := runWord_illegal he _
    _ = .next { s with inputs := rest, rsp := some 0x10000000_00000000_00000000_00000000#128 } := by
      rw [← respond_errIllegal]; rfl

/-- Settles O13, for an empty stream and for an idle event. -/
theorem idleStepKeepsEveryRegister : Obligations.IdleStepKeepsEveryRegister := by
  rintro s rest (⟨hin, rfl⟩ | hin)
  · rw [step_of_inputs_nil hin, ← hin]; rfl
  · exact step_of_idle hin

/-- R171, R176: SVF.STEP stores `low'` in both registers, and no other command writes either. -/
theorem svfAfter_low_eq_z1 {f : Svf} (h : f.low = f.z1) (n : Nat) (i : Instr) :
    (svfAfter n f i).low = (svfAfter n f i).z1 := by
  cases i with
  | svfStep input wct q => rfl
  | _ => exact h

theorem runWord_low_eq_z1 {w : CmdWord} {s t : State} (h : runWord w s = .next t) (hs : s.svf.low = s.svf.z1) :
    t.svf.low = t.svf.z1 := by
  cases hd : decode w with
  | legal i =>
    rw [(runWord_effect hd h).svf]
    exact svfAfter_low_eq_z1 hs _ i
  | illegal e =>
    rw [eq_answerIllegal_of_runWord hd h]
    exact hs

theorem responseFormed_of_runWord {w : CmdWord} {s t : State} (h : runWord w s = .next t) :
    ∀ r ∈ t.rsp, ResponseFormed r := by
  intro r hr
  obtain ⟨-, d0, d1, d2, hrsp⟩ | ⟨-, hrsp⟩ := runWord_rsp h <;> cases hrsp.symm.trans hr
  · exact responseFormed_ok d0 d1 d2
  · exact responseFormed_errIllegal

/-- A state that delivers nothing meets the invariant if its SVF registers do. -/
theorem inv_of_rsp_none {s : State} (hrsp : s.rsp = none) (h : s.svf.low = s.svf.z1) : s.Inv := by
  refine ⟨h, fun r hr => ?_⟩
  rw [hrsp] at hr
  cases hr

/-- Settles O17, by the kinds of step: a word keeps both halves, a reset makes both registers `+0`, idling keeps them; the last
two deliver nothing. -/
theorem stepKeepsLowEqualToZ1 : Obligations.StepKeepsLowEqualToZ1 := by
  intro s t ⟨hlow, _⟩ hstep
  obtain ⟨w, rest, -, hw⟩ | ⟨e, rest, -, -, rfl⟩ | ⟨rest, -, rfl⟩ := step_cases hstep
  · exact ⟨runWord_low_eq_z1 hw hlow, responseFormed_of_runWord hw⟩
  · exact inv_of_rsp_none rfl rfl
  · exact inv_of_rsp_none rfl hlow

end Sys2Proof.Machine
end

section
/-! The command port at its pins (30_encoding.md R80, R81; 70_reset_and_hazards.md R245): an offered response is stable, and an
accepted command is answered. -/

namespace Sys2Proof.Machine

section
variable {p : PortState} {i : PinsIn} {f : InFlight}

/-- R80: from acceptance to delivery `cmd_ready` is 0, and so it is while `rst` is high. -/
theorem pins_cmdReady_of_inFlight (h : p.inFlight = some f) (rst : Bool) : (p.pins rst).cmdReady = false := by
  cases rst <;> simp [PortState.pins, h]

theorem pins_rsp_of_offering (h : p.inFlight = some f) (hw : f.wait = 0) : (p.pins false).rsp = some f.rsp := by
  simp [PortState.pins, h, hw]

/-- An edge at which the host does not take the offered response. -/
theorem portEdge_of_offering_not_ready (hr : i.rst = false) (hk : p.offerKept i = true) (h : p.inFlight = some f)
    (hw : f.wait = 0) (hready : i.rspReady = false) :
    portEdge p i = .next { p with inFlight := some f, offered := i.stillOffered } := by
  simp [portEdge, hr, hk, h, hw, hready]

end

/-- Settles O54: `cmd_ready` is 0 while a response is in flight, and an edge that does not take an offered response keeps it. -/
theorem offeredResponseIsStable : Obligations.OfferedResponseIsStable := by
  intro p i f hf
  refine ⟨pins_cmdReady_of_inFlight hf _, by simp [PortState.acceptedAt, pins_cmdReady_of_inFlight hf], ?_⟩
  intro hw hr hready hk
  exact ⟨pins_rsp_of_offering hf hw, _, portEdge_of_offering_not_ready hr hk hf hw hready, rfl, pins_rsp_of_offering rfl hw⟩

/-- The block right after it accepted a command (R80): the response in flight, `LAT` edges to wait. -/
def PortState.accepted (n : Nat) (t : State) (r : RspWord) : PortState :=
  { core := t, inFlight := some { rsp := r, wait := Config.latency n + 1 }, offered := none, count := n + 1 }

/-- The edge at which an idle block accepts the word offered. -/
theorem portEdge_idle_accepts (n : Nat) (s : State) (w : CmdWord) (ready : Bool) : ∃ t r,
    runWord w s = .next t ∧ t.rsp = some r ∧
    portEdge (.idle n s) ⟨false, true, w, ready⟩ = .next (.accepted n t r) :=
  accept_eq (.idle n s) w

theorem portRun_cons_of_portEdge {p q : PortState} {i : PinsIn} {edges : List PinsIn} {v : PortTrace}
    (h : portEdge p i = .next q) (hv : portRun q edges = some v) : portRun p (i :: edges) =
      some { final := v.final, accepted := p.acceptedAt i ++ v.accepted, delivered := p.deliveredAt i ++ v.delivered } := by
  simp [portRun, h, hv]

/-- While a response is in flight an edge delivers it, which takes a ready host and no wait left, or keeps it one edge nearer. -/
theorem portEdge_inFlight_cases {p q : PortState} {i : PinsIn} {f : InFlight} (hr : i.rst = false)
    (hf : p.inFlight = some f) (h : portEdge p i = .next q) :
    p.deliveredAt i = [f.rsp] ∨
    (p.deliveredAt i = [] ∧ (f.wait = 0 → i.rspReady = false) ∧ q.inFlight = some { f with wait := f.wait - 1 }) := by
  obtain ⟨-, ⟨hidle, -⟩ | ⟨hidle, -⟩ | ⟨g, hg, hw, rfl⟩ | ⟨g, hg, hw, rfl⟩⟩ := portEdge_cases hr h
  · cases hidle.symm.trans hf
  · cases hidle.symm.trans hf
  · cases hg.symm.trans hf
    cases hready : i.rspReady with
    | true => exact .inl (by simp [deliveredAt_of_offering hr hf hw, hready])
    | false => exact .inr ⟨by simp [deliveredAt_of_offering hr hf hw, hready], fun _ => rfl, by cases f; cases hw; simp⟩
  · cases hg.symm.trans hf
    exact .inr ⟨deliveredAt_of_waiting hr hf hw, fun h0 => absurd h0 hw, rfl⟩

/-- If the host is ready at some edge once the response in flight is offered, the first response delivered is that one. -/
theorem portRun_delivers_inFlight {edges : List PinsIn} {p : PortState} {f : InFlight} {t : PortTrace}
    (hrst : ∀ i ∈ edges, i.rst = false) (hf : p.inFlight = some f) (h : portRun p edges = some t) {k : Nat} {j : PinsIn}
    (hk : f.wait ≤ k) (hj : edges[k]? = some j) (hready : j.rspReady = true) : t.delivered.head? = some f.rsp := by
  induction edges generalizing p f t k with
  | nil => cases hj
  | cons i edges ih =>
    obtain ⟨hr, hrest⟩ := List.forall_mem_cons.mp hrst
    obtain ⟨q, v, hedge, hv, -, -, hdelivered⟩ := portRun_cons h
    rw [hdelivered]
    obtain hnow | ⟨hnone, hnot, hq⟩ := portEdge_inFlight_cases hr hf hedge
    · rw [hnow]; rfl
    · rw [hnone]
      cases k with
      | zero =>
        cases hj
        rw [hnot (Nat.le_zero.mp hk)] at hready
        cases hready
      | succ k => exact ih (f := { f with wait := f.wait - 1 }) hrest hq hv (Nat.sub_le_of_le_add hk) hj

/-- Settles O53. A ready host waits `LAT` edges and takes the response at the next one; for any other, the response in flight
stays until an edge at which the host is ready. -/
theorem acceptedCommandIsEventuallyAnswered : Obligations.AcceptedCommandIsEventuallyAnswered := by
  constructor
  · intro n s w
    obtain ⟨t, r, ht, hr, hedge⟩ := portEdge_idle_accepts n s w true
    exact ⟨t, r, ht, hr, portRun_cons_of_portEdge hedge (portRun_wait (n + 1) t r (Config.latency n + 1))⟩
  · intro n s w ready edges t hrst h ⟨k, j, hk, hj, hready⟩
    obtain ⟨u, r, hu, hr, hedge⟩ := portEdge_idle_accepts n s w ready
    obtain ⟨q, v, hedge', hv, -, haccepted, hdelivered⟩ := portRun_cons h
    cases hedge.symm.trans hedge'
    refine ⟨u, r, hu, hr, ?_, ?_⟩
    · rw [haccepted, acceptedAt_of_idle rfl rfl]; rfl
    · rw [hdelivered, deliveredAt_of_idle rfl rfl]
      exact portRun_delivers_inFlight hrst rfl hv hk hj hready

end Sys2Proof.Machine
end

section
/-! The text form (30_encoding.md R79): the examples of the rule, and the pseudo-command `ud.write` (R164). -/

namespace Sys2Proof.Machine

/-- R164: `ud.write` is read as `ud.rdadv`, or refused like it, whatever the operands. -/
theorem parseCommand_udWrite (ops : List (List Char)) :
    parseCommand "ud.write".toList ops = parseCommand "ud.rdadv".toList ops := by
  have hword : udWrite = Instr.udRdadv := rfl
  match ops with
  | [_] => simp [parseCommand, hword]
  | [_, _, _] => simp [parseCommand]
  | [] | [_, _] | _ :: _ :: _ :: _ :: _ => simp [parseCommand]

/-- Settles O56: the five lines are assembled, and the two mnemonics are read alike for every number of operands. -/
theorem textExamplesAssemble : Obligations.TextExamplesAssemble :=
  ⟨by decide +kernel, by decide +kernel, by decide +kernel, by decide +kernel, by decide +kernel, parseCommand_udWrite⟩

end Sys2Proof.Machine
end

section
/-! NaNs are absorbing (40_numerics.md R113): each primitive, and so the biquad's sample, the design and the SVF's step, answers
a NaN where a NaN goes in. -/

namespace Sys2Proof.Machine

section
variable {a b : F32} {n : Nat}

@[simp] theorem isNaN_fadd_of_nan (h : isNaN a = true ∨ isNaN b = true) : isNaN (fadd (nanDraw n) a b) = true := by
  rw [fadd_of_nan _ _ _ h, isNaN_nanDraw]

@[simp] theorem isNaN_fsub_of_nan (h : isNaN a = true ∨ isNaN b = true) : isNaN (fsub (nanDraw n) a b) = true := by
  rw [fsub_of_nan _ _ _ h, isNaN_nanDraw]

@[simp] theorem isNaN_fmul_of_nan (h : isNaN a = true ∨ isNaN b = true) : isNaN (fmul (nanDraw n) a b) = true := by
  rw [fmul_of_nan _ _ _ h, isNaN_nanDraw]

@[simp] theorem isNaN_fdiv_of_nan (h : isNaN a = true ∨ isNaN b = true) : isNaN (fdiv (nanDraw n) a b) = true := by
  rw [fdiv_of_nan _ _ _ h, isNaN_nanDraw]

@[simp] theorem isNaN_fneg_of_nan (h : isNaN a = true) : isNaN (fneg (nanDraw n) a) = true := by
  rw [fneg_of_nan _ _ h, isNaN_nanDraw]

@[simp] theorem isNaN_applyConfig_of_nan {f : F32 → F32} (h : isNaN (f a) = true) :
    isNaN (applyConfig f (nanDraw n) a) = true := by
  rw [applyConfig_of_nan _ _ _ h, isNaN_nanDraw]

end

/-- Settles O50, one primitive after the other. -/
theorem naNOperandsGiveNaNResults : Obligations.NaNOperandsGiveNaNResults :=
  ⟨isNaN_nanDraw, fun _ _ h => isNaN_fneg_of_nan h,
    fun _ _ _ h => ⟨isNaN_fadd_of_nan h, isNaN_fsub_of_nan h, isNaN_fmul_of_nan h, isNaN_fdiv_of_nan h⟩⟩

/-- R131 (c): one NaN term makes the sum a NaN, and one NaN factor makes its term a NaN. -/
theorem isNaN_biquadOutput {b : Biquad} {x0 : F32} (n : Nat)
    (h : (isNaN b.coef.b0 = true ∨ isNaN x0 = true) ∨ (isNaN b.coef.b1 = true ∨ isNaN b.hist.x1 = true) ∨
      (isNaN b.coef.b2 = true ∨ isNaN b.hist.x2 = true) ∨ (isNaN b.coef.a1 = true ∨ isNaN b.hist.y1 = true) ∨
      (isNaN b.coef.a2 = true ∨ isNaN b.hist.y2 = true)) : isNaN (biquadOutput n b x0) = true := by
  have summand1 := fun {a b} => isNaN_fadd_of_nan (a := a) (b := b) (n := n + 5)
  have summand2 := fun {a b} => isNaN_fadd_of_nan (a := a) (b := b) (n := n + 6)
  have summand3 := fun {a b} => isNaN_fsub_of_nan (a := a) (b := b) (n := n + 7)
  have summand4 := fun {a b} => isNaN_fsub_of_nan (a := a) (b := b) (n := n + 8)
  obtain h | h | h | h | h := h
  · exact summand4 (.inl (summand3 (.inl (summand2 (.inl (summand1 (.inl (isNaN_fmul_of_nan h))))))))
  · exact summand4 (.inl (summand3 (.inl (summand2 (.inl (summand1 (.inr (isNaN_fmul_of_nan h))))))))
  · exact summand4 (.inl (summand3 (.inl (summand2 (.inr (isNaN_fmul_of_nan h))))))
  · exact summand4 (.inl (summand3 (.inr (isNaN_fmul_of_nan h))))
  · exact summand4 (.inr (isNaN_fmul_of_nan h))

/-- Settles O23: each of the nine registers is a factor of one of the five terms. -/
theorem bqNaNReachesTheOutput : Obligations.BqNaNReachesTheOutput := by
  intro s x0 h
  refine ⟨_, rfl, isNaN_biquadOutput s.draws ?_, rfl⟩
  obtain hx | ⟨r, hr, hmem⟩ := h
  · exact .inl (.inr hx)
  · fin_cases hmem <;> simp only [State.read] at hr <;> simp [hr]

/-- R175: a NaN in a cell makes `low'` a NaN, `low'` makes `high'` one, and `high'` makes `band` one. -/
theorem isNaN_svfNext {f : Svf} (h : isNaN f.z1 = true ∨ isNaN f.z2 = true) (n : Nat) (input wct q : F32) :
    isNaN (svfNext n f input wct q).low = true ∧ isNaN (svfNext n f input wct q).high = true ∧
    isNaN (svfNext n f input wct q).z1 = true ∧ isNaN (svfNext n f input wct q).z2 = true := by
  have hlow : isNaN (svfNext n f input wct q).low = true :=
    isNaN_fadd_of_nan (h.symm.imp_left fun hz2 => isNaN_fmul_of_nan (.inr hz2))
  have hhigh : isNaN (svfNext n f input wct q).high = true := isNaN_fadd_of_nan (.inl (isNaN_fsub_of_nan (.inr hlow)))
  exact ⟨hlow, hhigh, hlow, isNaN_fadd_of_nan (.inl (isNaN_fmul_of_nan (.inr hhigh)))⟩

/-- What a step that is not a reset does to the registers: what one command does, or nothing. -/
theorem step_cases_of_not_reset {s t : State} (h : step s = .next t)
    (hr : ∀ e ∈ s.inputs.head?, e ≠ .reset ∧ ∀ w, e ≠ .resetInFlight w) :
    (∃ i rest, CommandEffect i (s.withInputs rest) t) ∨ t.bq = s.bq ∧ t.svf = s.svf := by
  obtain ⟨w, rest, -, hw⟩ | ⟨e, rest, hin, he, -⟩ | ⟨rest, -, rfl⟩ := step_cases h
  · cases hd : decode w with
    | legal i => exact .inl ⟨i, rest, runWord_effect hd hw⟩
    | illegal e =>
      rw [eq_answerIllegal_of_runWord hd hw]
      exact .inr ⟨rfl, rfl⟩
  · obtain ⟨hreset, hflight⟩ := hr e (by rw [hin]; rfl)
    obtain he | ⟨w, he⟩ := he
    · exact absurd he hreset
    · exact absurd he (hflight w)
  · exact .inr ⟨rfl, rfl⟩

theorem isNaN_historyAfter_y1 {b : Biquad} (h : isNaN b.hist.y1 = true) (n : Nat) (i : Instr) :
    isNaN (historyAfter n b i).y1 = true := by
  cases i with
  | bqProc x0 => exact isNaN_biquadOutput n (.inr (.inr (.inr (.inl (.inr h)))))
  | _ => exact h

/-- Settles O18: BQ.PROC multiplies the NaN into its output, and no other command writes `y1`. -/
theorem biquadNaNOutputPersists : Obligations.BiquadNaNOutputPersists := by
  intro s t h hstep hr
  obtain ⟨i, rest, e⟩ | ⟨hbq, -⟩ := step_cases_of_not_reset hstep hr
  · rw [e.hist]
    exact isNaN_historyAfter_y1 h _ i
  · rwa [hbq]

theorem isNaN_svfAfter_cells {f : Svf} (h : isNaN f.z1 = true ∨ isNaN f.z2 = true) (n : Nat) (i : Instr) :
    isNaN (svfAfter n f i).z1 = true ∨ isNaN (svfAfter n f i).z2 = true := by
  cases i with
  | svfStep input wct q =>
    obtain ⟨-, -, hz1, -⟩ := isNaN_svfNext h n input wct q
    exact .inl hz1
  | _ => exact h

/-- Settles O19: SVF.STEP makes both cells NaNs, and no other command writes them. -/
theorem svfNaNPersists : Obligations.SvfNaNPersists := by
  constructor
  · intro s input wct q h
    exact ⟨_, rfl, isNaN_svfNext h s.draws input wct q⟩
  · intro s t h hstep hr
    obtain ⟨i, rest, e⟩ | ⟨-, hsvf⟩ := step_cases_of_not_reset hstep hr
    · rw [e.svf]
      exact isNaN_svfAfter_cells h _ i
    · rwa [hsvf]

/-- R134: a NaN sine or `Q` makes `alpha` a NaN, and with it `a0`, by which every coefficient is divided. -/
theorem isNaN_normalizedCoefs {sw q : F32} (h : isNaN sw = true ∨ isNaN q = true) (n : Nat) (cw : F32) :
    let c := normalizedCoefs n sw cw q
    isNaN c.b0 = true ∧ isNaN c.b1 = true ∧ isNaN c.b2 = true ∧ isNaN c.a1 = true ∧ isNaN c.a2 = true := by
  have halpha : isNaN (fdiv (nanDraw (n + 1)) sw (fmul (nanDraw n) two q)) = true :=
    isNaN_fdiv_of_nan (h.imp_right fun hq => isNaN_fmul_of_nan (.inr hq))
  have ha0 := isNaN_fadd_of_nan (n := n + 4) (a := one) (.inr halpha)
  have hdiv := fun {k u} => isNaN_fdiv_of_nan (n := k) (a := u) (.inr ha0)
  exact ⟨hdiv, hdiv, hdiv, hdiv, hdiv⟩

/-- Settles O29: a NaN `Q` reaches `alpha` itself; a NaN `f0` or `sampleRate` does through `w0` and its sine. -/
theorem naNOperandMakesEveryCoefficientNaN : Obligations.NaNOperandMakesEveryCoefficientNaN := by
  intro sin cos n f0 q sampleRate h
  refine isNaN_normalizedCoefs ?_ _ _
  obtain hq | ⟨⟨hnan, -⟩, h⟩ := h
  · exact .inr hq
  · have hw0 : isNaN (angularCutoff n f0 sampleRate) = true :=
      isNaN_fdiv_of_nan (h.imp_left fun hf0 => isNaN_fmul_of_nan (.inr hf0))
    exact .inl (isNaN_applyConfig_of_nan (hnan _ (.inl hw0)).1)

end Sys2Proof.Machine
end

section
/-! Correct rounding (40_numerics.md R101): the rounded magnitude depends on the ratio alone, is monotone, overflows from
`2^128 - 2^103` on, and is nearest among all finite patterns of either sign. -/

namespace Sys2Proof.Machine

/-- The factor that a sign puts before a magnitude. -/
def signFactor (s : Bool) : Rat := if s then -1 else 1

theorem signFactor_xor (s t : Bool) : signFactor (s ^^ t) = signFactor s * signFactor t := by
  cases s <;> cases t <;> simp [signFactor]

theorem signFactor_mul_self (s : Bool) : signFactor s * signFactor s = 1 := by cases s <;> simp [signFactor]

theorem abs_signFactor (s : Bool) : |signFactor s| = 1 := by cases s <;> simp [signFactor]

theorem signFactor_decide_mul_natAbs (z : Int) : signFactor (decide (z < 0)) * (z.natAbs : Rat) = z := by
  rcases lt_or_ge z 0 with h | h
  · have : ((z.natAbs : Int) : Rat) = ((-z : Int) : Rat) := by rw [Int.ofNat_natAbs_of_nonpos h.le]
    push_cast at this
    simp [signFactor, h, this]
  · have : ((z.natAbs : Int) : Rat) = (z : Rat) := by rw [Int.natAbs_of_nonneg h]
    push_cast at this
    simp [signFactor, not_lt.mpr h, this]

theorem unitsOf_eq (p : F32) : (unitsOf p : Rat) = signFactor (signOf p) * magOf p := by
  cases h : signOf p <;> simp [unitsOf, signFactor, h]

theorem valueOf_eq (p : F32) : valueOf p = signFactor (signOf p) * magOf p / 2 ^ 149 := by rw [valueOf, unitsOf_eq]

theorem natAbs_unitsOf (p : F32) : (unitsOf p).natAbs = magOf p := by cases h : signOf p <;> simp [unitsOf, h]

theorem nearestEven_mul_right (num den c : Nat) (hc : 0 < c) : nearestEven (num * c) (den * c) = nearestEven num den := by
  have hrest : 2 * (num % den * c) = 2 * (num % den) * c := by ring
  simp only [nearestEven, Nat.mul_div_mul_right _ _ hc, Nat.mul_mod_mul_right, hrest, Nat.mul_lt_mul_right hc]

/-- The rounded magnitude depends on the ratio alone. -/
theorem roundUnits_mul_right (num den c : Nat) (hc : 0 < c) : roundUnits (num * c) (den * c) = roundUnits num den := by
  have hden : ∀ q, den * c * q = den * q * c := fun q => by ring
  simp only [roundUnits, Nat.mul_div_mul_right _ _ hc, hden, nearestEven_mul_right _ _ _ hc]

/-- A rounded magnitude is itself on the grid of `magOf_grid`. -/
theorem roundUnits_grid (num den k : Nat) (hd : 0 < den) (h : 2 ^ 23 * 2 ^ k ≤ roundUnits num den) :
    2 ^ k ∣ roundUnits num den := by
  obtain ⟨hle, -⟩ := nearestEven_bounds num den hd
  rw [roundUnits_eq] at h ⊢
  generalize nearestEven num (den * 2 ^ spacingLog num den) = n at *
  generalize spacingLog num den = j at *
  rcases Nat.lt_or_ge j k with hjk | hjk
  · have hpow : 2 ^ 23 * 2 ^ k = 2 ^ 24 * 2 ^ (k - 1) := by
      obtain ⟨m, rfl⟩ : ∃ m, k = m + 1 := ⟨k - 1, by omega⟩
      rw [Nat.add_sub_cancel]
      ring
    have hj : 2 ^ j ≤ 2 ^ (k - 1) := Nat.pow_le_pow_right (by norm_num) (by omega)
    have hmul : n * 2 ^ j ≤ 2 ^ 24 * 2 ^ (k - 1) := Nat.mul_le_mul hle hj
    have heq : n * 2 ^ j = 2 ^ 23 * 2 ^ k := by omega
    rw [heq]
    exact dvd_mul_left _ _
  · exact (pow_dvd_pow 2 hjk).mul_left n

/-- What is at least as near to the larger of two numbers lies in the upper half between them. -/
theorem add_le_two_mul_of_abs_sub_le {u v x : Int} (huv : u < v) (h : |v - x| ≤ |u - x|) : u + v ≤ 2 * x := by
  by_contra hx
  have hlt : |u - x| < v - x := abs_lt.mpr ⟨by linarith, by linarith⟩
  exact absurd (hlt.trans_le (le_abs_self _)) (not_lt.mpr h)

/-- What is at least as near to the smaller of two numbers lies in the lower half between them. -/
theorem two_mul_le_add_of_abs_sub_le {u v x : Int} (huv : u < v) (h : |u - x| ≤ |v - x|) : 2 * x ≤ u + v := by
  by_contra hx
  have hlt : |v - x| < -(u - x) := abs_lt.mpr ⟨by linarith, by linarith⟩
  exact absurd (hlt.trans_le (neg_le_abs _)) (not_lt.mpr h)

/-- If the smaller of two fractions were rounded to the larger number, both would lie halfway, so they would be equal. -/
theorem roundUnits_mono {num num' : Nat} (den : Nat) (hd : 0 < den) (h : num ≤ num') :
    roundUnits num den ≤ roundUnits num' den := by
  rcases h.eq_or_lt with rfl | hlt
  · exact le_rfl
  · by_contra hgt
    obtain ⟨near, -⟩ := roundUnits_nearest num den _ hd fun k => roundUnits_grid num' den k hd
    obtain ⟨near', -⟩ := roundUnits_nearest num' den _ hd fun k => roundUnits_grid num den k hd
    have hmul : roundUnits num' den * den < roundUnits num den * den := Nat.mul_lt_mul_of_pos_right (by omega) hd
    have hup := add_le_two_mul_of_abs_sub_le (by exact_mod_cast hmul) near
    have hlow := two_mul_le_add_of_abs_sub_le (by exact_mod_cast hmul) near'
    omega

/-- R101: "a real of magnitude at least `2^128 - 2^103` becomes an infinity, anything smaller in magnitude becomes a finite
number", in units of `2^-149`. -/
theorem overflow_le_roundUnits_iff (num den : Nat) (hd : 0 < den) :
    2 ^ 128 * 2 ^ 149 ≤ roundUnits num den ↔ (2 ^ 128 - 2 ^ 103) * 2 ^ 149 * den ≤ num := by
  constructor
  · intro h
    by_contra hlt
    -- the largest finite magnitude is nearer
    have hmax : magOf 0x7F7FFFFF#32 = (2 ^ 128 - 2 ^ 104) * 2 ^ 149 := by decide +kernel
    obtain ⟨near, -⟩ := roundUnits_nearest num den (magOf 0x7F7FFFFF#32) hd (magOf_grid _)
    have hmul : 2 ^ 128 * 2 ^ 149 * den ≤ roundUnits num den * den := Nat.mul_le_mul_right den h
    rw [hmax] at near
    have hup := add_le_two_mul_of_abs_sub_le (by zify at hmul hd; push_cast; linarith) near
    zify at hlt hmul hd
    push_cast at hup hlt
    linarith
  · intro h
    have hbound : roundUnits ((2 ^ 128 - 2 ^ 103) * 2 ^ 149) 1 = 2 ^ 128 * 2 ^ 149 := by decide +kernel
    calc 2 ^ 128 * 2 ^ 149 = roundUnits ((2 ^ 128 - 2 ^ 103) * 2 ^ 149 * den) (1 * den) := by
          rw [roundUnits_mul_right _ _ _ hd, hbound]
      _ ≤ roundUnits num den := by rw [one_mul]; exact roundUnits_mono den hd h

theorem getLsbD_zero_eq (p : F32) : p.getLsbD 0 = decide (p.toNat % 2 = 1) := by
  simp [BitVec.getLsbD, Nat.testBit_zero]

theorem packUnits_of_overflow (s : Bool) {v : Nat} (h : 2 ^ 128 * 2 ^ 149 ≤ v) : packUnits s v = infOf s := by
  simp only [packUnits, if_pos h]

/-- The pattern of a rounded magnitude below the overflow bound: finite, of that sign and magnitude, its last bit the parity
of the rounded integer. -/
theorem packUnits_roundUnits (s : Bool) {num den : Nat} (hd : 0 < den) (h : roundUnits num den < 2 ^ 128 * 2 ^ 149) :
    isFinite (packUnits s (roundUnits num den)) = true ∧ signOf (packUnits s (roundUnits num den)) = s ∧
    magOf (packUnits s (roundUnits num den)) = roundUnits num den ∧
    (nearestEven num (den * 2 ^ spacingLog num den) % 2 = 0 →
      (packUnits s (roundUnits num den)).getLsbD 0 = false) := by
  obtain ⟨hn, hk⟩ := nearestEven_bounds num den hd
  rw [roundUnits_eq] at h ⊢
  obtain ⟨hsign, hexp, hmag, hpar⟩ := packUnits_spec s _ _ hn hk h
  refine ⟨?_, hsign, hmag, fun heven => ?_⟩
  · simp [isFinite, hexp.ne]
  · rw [getLsbD_zero_eq, hpar, heven]
    rfl

/-- No integer number of units that is a finite pattern's, of either sign, is nearer than the rounded magnitude, and the
rounded integer is even if another is as near. -/
theorem roundUnits_nearest_int (num den : Nat) (z : Int) (hd : 0 < den)
    (hg : ∀ k, 2 ^ 23 * 2 ^ k ≤ z.natAbs → 2 ^ k ∣ z.natAbs) :
    |(roundUnits num den * den : Int) - num| ≤ |z * den - num| ∧
    (|(roundUnits num den * den : Int) - num| = |z * den - num| → z ≠ roundUnits num den →
      nearestEven num (den * 2 ^ spacingLog num den) % 2 = 0) := by
  rcases le_or_gt 0 z with hz | hz
  · obtain ⟨m, rfl⟩ := Int.eq_ofNat_of_zero_le hz
    have near := roundUnits_nearest num den m hd hg
    push_cast at near
    exact near.imp_right fun htie h hne => htie h fun hm => hne (by rw [hm])
  · -- a number of the other sign is further away than 0
    obtain ⟨near, -⟩ := roundUnits_nearest num den 0 hd fun k _ => dvd_zero _
    have hfar : |((0 * den : Nat) : Int) - num| < |z * den - num| := by
      have hzd : z * den < 0 := mul_neg_of_neg_of_pos hz (by exact_mod_cast hd)
      rw [abs_of_nonpos (by simp), abs_of_neg (by omega)]
      push_cast
      linarith
    push_cast at near hfar
    exact ⟨(near.trans_lt hfar).le, fun h => absurd h (near.trans_lt hfar).ne⟩

/-- The distance of a number of units from a fraction, both with a sign `s` before them, as an integer over `den * 2^149`. -/
theorem abs_signed_sub (s : Bool) (z : Int) (num den : Nat) (hd : 0 < den) :
    |signFactor s * z / 2 ^ 149 - signFactor s * ((num : Rat) / den) / 2 ^ 149| =
      ((|z * den - num| : Int) : Rat) / (den * 2 ^ 149) := by
  have hd' : (0 : Rat) < den := by exact_mod_cast hd
  have h : signFactor s * z / 2 ^ 149 - signFactor s * ((num : Rat) / den) / 2 ^ 149 =
      signFactor s * ((z * den - num) / (den * 2 ^ 149)) := by field_simp
  rw [h, abs_mul, abs_signFactor, one_mul, abs_div, abs_of_pos (by positivity : (0 : Rat) < den * 2 ^ 149)]
  push_cast
  rfl

/-- R101 for a fraction that is not zero, of either sign. -/
theorem roundsTo_round32 (s : Bool) {num den : Nat} (zs : Bool) (hd : 0 < den) (hn : 0 < num) :
    RoundsTo (signFactor s * ((num : Rat) / den) / 2 ^ 149) (round32 s num den zs) := by
  have hd' : (0 : Rat) < den := by exact_mod_cast hd
  have hn' : (0 : Rat) < num := by exact_mod_cast hn
  have habs : |signFactor s * ((num : Rat) / den) / 2 ^ 149| = (num : Rat) / (den * 2 ^ 149) := by
    have h := abs_signed_sub s 0 num den hd
    simp only [Int.cast_zero, mul_zero, zero_div, zero_sub, abs_neg, zero_mul, Nat.abs_cast, Int.cast_natCast] at h
    exact h
  have hneg : decide (signFactor s * ((num : Rat) / den) / 2 ^ 149 < 0) = s := by
    have hpos : (0 : Rat) < num / den / 2 ^ 149 := by positivity
    cases s
    · simpa [signFactor] using hpos.le
    · simpa [signFactor, neg_div] using hpos
  have hover : (2 : Rat) ^ 128 - 2 ^ 103 ≤ num / (den * 2 ^ 149) ↔ 2 ^ 128 * 2 ^ 149 ≤ roundUnits num den := by
    rw [overflow_le_roundUnits_iff num den hd, le_div_iff₀ (by positivity), ← Nat.cast_le (α := Rat)]
    push_cast
    constructor <;> intro h <;> linarith
  rw [RoundsTo, habs, hneg, round32, if_neg hn.ne']
  split
  · next h => exact packUnits_of_overflow s (hover.mp h)
  · next h =>
    obtain ⟨hfin, hsign, hmag, heven⟩ := packUnits_roundUnits s hd (Nat.lt_of_not_le (mt hover.mpr h))
    refine ⟨hfin, hsign, fun p' _ => ?_⟩
    -- both values as numbers of units with the sign `s` before them
    obtain ⟨z, hz, hzabs⟩ : ∃ z : Int, valueOf p' = signFactor s * z / 2 ^ 149 ∧ z.natAbs = magOf p' := by
      cases s
      · exact ⟨unitsOf p', by simp [valueOf, signFactor], natAbs_unitsOf p'⟩
      · exact ⟨-unitsOf p', by simp [valueOf, signFactor], by rw [Int.natAbs_neg, natAbs_unitsOf p']⟩
    obtain ⟨near, tie⟩ := roundUnits_nearest_int num den z hd (by rw [hzabs]; exact magOf_grid p')
    rw [valueOf_eq, hsign, hmag, hz, ← Int.cast_natCast (R := Rat), abs_signed_sub s _ num den hd,
      abs_signed_sub s _ num den hd, div_le_div_iff_of_pos_right (by positivity),
      div_left_inj' (by positivity), Int.cast_le, Int.cast_inj]
    refine ⟨near, fun h hne => heven (tie h ?_)⟩
    rintro rfl
    exact hne rfl

/-- What rounding can answer: the zero given, the infinity of the sign, or a finite number of the sign. -/
theorem round32_cases (s zs : Bool) (num : Nat) {den : Nat} (hd : 0 < den) :
    (num = 0 ∧ round32 s num den zs = zeroOf zs) ∨
    (num ≠ 0 ∧ 2 ^ 128 * 2 ^ 149 ≤ roundUnits num den ∧ round32 s num den zs = infOf s) ∨
    (num ≠ 0 ∧ roundUnits num den < 2 ^ 128 * 2 ^ 149 ∧ isFinite (round32 s num den zs) = true ∧
      signOf (round32 s num den zs) = s ∧ magOf (round32 s num den zs) = roundUnits num den) := by
  unfold round32
  split
  · next h => exact .inl ⟨h, rfl⟩
  · next h =>
    rcases Nat.lt_or_ge (roundUnits num den) (2 ^ 128 * 2 ^ 149) with hlt | hge
    · obtain ⟨hfin, hsign, hmag, -⟩ := packUnits_roundUnits s hd hlt
      exact .inr (.inr ⟨h, hlt, hfin, hsign, hmag⟩)
    · exact .inr (.inl ⟨h, hge, packUnits_of_overflow s hge⟩)

/-- Settles O43. -/
theorem round32IsNearestTiesToEven : Obligations.Round32IsNearestTiesToEven :=
  fun s _ _ zs hd => ⟨fun h => by rw [round32, if_pos h], fun hn => roundsTo_round32 s zs hd hn⟩

end Sys2Proof.Machine
end

section
/-! The primitives' clauses (40_numerics.md R104 to R108): which one applies to operands of which class, the exact result
rounded once, and results that are exact. -/

namespace Sys2Proof.Machine

-- ======== Classes, signs and magnitudes ========

section
variable {p : F32}

theorem isNaN_of_isFinite (h : isFinite p = true) : isNaN p = false := (not_nan_of_isFinite h).1

theorem isFinite_of_isZero (h : isZero p = true) : isFinite p = true := by
  rw [(isZero_iff p).mp h]; simp

theorem not_nan_not_zero_of_isInf (h : isInf p = true) : isNaN p = false ∧ isZero p = false := by
  rw [(isInf_iff p).mp h]; simp

theorem not_nan_not_inf_of_isZero (h : isZero p = true) : isNaN p = false ∧ isInf p = false :=
  not_nan_of_isFinite (isFinite_of_isZero h)

@[simp] theorem magOf_zeroOf (s : Bool) : magOf (zeroOf s) = 0 := by cases s <;> decide

@[simp] theorem magOf_infOf (s : Bool) : magOf (infOf s) = 2 ^ 128 * 2 ^ 149 := by cases s <;> decide +kernel

theorem magOf_eq_zero_iff : magOf p = 0 ↔ isZero p = true := by
  constructor
  · intro h
    by_contra hz
    exact (magOf_pos (Bool.eq_false_iff.mpr hz)).ne' h
  · intro h
    rw [(isZero_iff p).mp h, magOf_zeroOf]

theorem unitsOf_eq_zero_iff : unitsOf p = 0 ↔ isZero p = true := by
  rw [← Int.natAbs_eq_zero, natAbs_unitsOf, magOf_eq_zero_iff]

theorem unitsOf_neg_iff (h : isZero p = false) : unitsOf p < 0 ↔ signOf p = true := by
  have := magOf_pos h
  cases hs : signOf p
  · simp [unitsOf, hs]
  · simpa [unitsOf, hs] using this

theorem valueOf_eq_zero_iff : valueOf p = 0 ↔ isZero p = true := by
  simp [valueOf, ← unitsOf_eq_zero_iff]

end

-- ======== Rounding once, and not at all ========

/-- R101 for a fraction whose numerator has the sign. -/
theorem roundsTo_round32_int {z : Int} (den : Nat) (zs : Bool) (hd : 0 < den) (hz : z ≠ 0) :
    RoundsTo ((z : Rat) / den / 2 ^ 149) (round32 (decide (z < 0)) z.natAbs den zs) := by
  have h := roundsTo_round32 (decide (z < 0)) zs hd (Int.natAbs_pos.mpr hz)
  rwa [← mul_div_assoc, signFactor_decide_mul_natAbs] at h

theorem roundUnits_eq_of_exact {p : F32} {num den : Nat} (hd : 0 < den) (h : num = magOf p * den) :
    roundUnits num den = magOf p := by
  have near := (roundUnits_nearest num den (magOf p) hd (magOf_grid p)).1
  rw [h, sub_self, abs_zero] at near
  rw [h]
  exact Nat.eq_of_mul_eq_mul_right hd (by exact_mod_cast sub_eq_zero.mp (abs_nonpos_iff.mp near))

/-- Rounding a finite pattern's own value gives that pattern. -/
theorem round32_of_exact {p : F32} {s : Bool} {num den : Nat} (zs : Bool) (hp : isFinite p = true) (hz : isZero p = false)
    (hs : signOf p = s) (hd : 0 < den) (h : num = magOf p * den) : round32 s num den zs = p := by
  have hround := roundUnits_eq_of_exact hd h
  obtain ⟨-, hsign, hmag, -⟩ := packUnits_roundUnits s hd (hround.trans_lt (magOf_lt hp))
  have hnum : num ≠ 0 := by
    rw [h]
    exact (Nat.mul_pos (magOf_pos hz) hd).ne'
  rw [round32, if_neg hnum]
  exact magOf_injective (hsign.trans hs.symm) (hmag.trans hround)

-- ======== Negation (R108) ========

section
variable {nan a : F32}

theorem fneg_of_not_nan (h : isNaN a = false) : fneg nan a = a ^^^ 0x80000000#32 := by simp [fneg, h]

/-- Negation keeps the class and the magnitude, and changes the sign. -/
theorem fneg_class (h : isNaN a = false) :
    isNaN (fneg nan a) = false ∧ isInf (fneg nan a) = isInf a ∧ isZero (fneg nan a) = isZero a ∧
    isFinite (fneg nan a) = isFinite a ∧ signOf (fneg nan a) = (!signOf a) ∧ magOf (fneg nan a) = magOf a := by
  obtain ⟨hsign, hexp, hfrac⟩ := fneg_fields (nan := nan) h
  refine ⟨?_, ?_, ?_, ?_, hsign, ?_⟩
  · rw [← h, isNaN, isNaN, hexp, hfrac]
  · rw [isInf, isInf, hexp, hfrac]
  · rw [isZero, isZero, hexp, hfrac]
  · rw [isFinite, isFinite, hexp]
  · rw [magOf, magOf, hexp, hfrac]

theorem unitsOf_fneg (h : isNaN a = false) : unitsOf (fneg nan a) = -unitsOf a := by
  obtain ⟨-, -, -, -, hsign, hmag⟩ := fneg_class (nan := nan) h
  cases hs : signOf a <;> simp [unitsOf, hsign, hmag, hs]

theorem valueOf_fneg (h : isNaN a = false) : valueOf (fneg nan a) = -valueOf a := by
  rw [valueOf, unitsOf_fneg h, valueOf]
  push_cast
  ring

/-- A pattern of the other sign and the same magnitude is the negation. -/
theorem fneg_eq_of_magOf_eq {b : F32} (h : isNaN a = false) (hs : signOf b = !signOf a) (hm : magOf b = magOf a) :
    fneg nan a = b := by
  obtain ⟨-, -, -, -, hsign, hmag⟩ := fneg_class (nan := nan) h
  exact magOf_injective (hsign.trans hs.symm) (hmag.trans hm.symm)

theorem fneg_fneg (h : isNaN a = false) : fneg nan (fneg nan a) = a := by
  obtain ⟨hnan, -, -, -, hsign, hmag⟩ := fneg_class (nan := nan) h
  exact fneg_eq_of_magOf_eq hnan (by simp [hsign]) hmag.symm

@[simp] theorem fneg_zeroOf (s : Bool) : fneg nan (zeroOf s) = zeroOf !s := fneg_eq_of_magOf_eq (by simp) (by simp) (by simp)

@[simp] theorem fneg_infOf (s : Bool) : fneg nan (infOf s) = infOf !s := fneg_eq_of_magOf_eq (by simp) (by simp) (by simp)

/-- Rounding to nearest treats both signs alike. -/
theorem fneg_round32 (s zs : Bool) (num : Nat) {den : Nat} (hd : 0 < den) :
    fneg nan (round32 s num den zs) = round32 (!s) num den !zs := by
  unfold round32
  split
  · exact fneg_zeroOf zs
  · rcases Nat.lt_or_ge (roundUnits num den) (2 ^ 128 * 2 ^ 149) with h | h
    · obtain ⟨hfin, hsign, hmag, -⟩ := packUnits_roundUnits s hd h
      obtain ⟨-, hsign', hmag', -⟩ := packUnits_roundUnits (!s) hd h
      exact fneg_eq_of_magOf_eq (isNaN_of_isFinite hfin) (by rw [hsign, hsign']) (hmag'.trans hmag.symm)
    · rw [packUnits_of_overflow _ h, packUnits_of_overflow _ h, fneg_infOf]

end

-- ======== Addition and subtraction (R104, R105) ========

section
variable {nan a b : F32}

theorem fadd_of_opposite_infs (s : Bool) : fadd nan (infOf s) (infOf !s) = nan := by simp [fadd]

theorem fadd_of_isInf_left (ha : isInf a = true) (hb : isNaN b = false) (h : b ≠ infOf (!signOf a)) : fadd nan a b = a := by
  obtain ⟨hna, -⟩ := not_nan_not_zero_of_isInf ha
  have hop : (isInf b && signOf a != signOf b) = false := by
    cases hbi : isInf b with
    | false => rfl
    | true =>
      have hsame : signOf a = signOf b := by
        by_contra hne
        exact h (Bool.eq_not.mpr (Ne.symm hne) ▸ (isInf_iff b).mp hbi)
      simp [hsame]
  simp only [fadd, hna, hb, ha, Bool.true_and, hop]
  simp

theorem fadd_of_isInf_right (hb : isInf b = true) (ha : isFinite a = true) : fadd nan a b = b := by
  obtain ⟨hnb, -⟩ := not_nan_not_zero_of_isInf hb
  obtain ⟨hna, hia⟩ := not_nan_of_isFinite ha
  simp [fadd, hna, hnb, hia, hb]

theorem fadd_zeroOf_zeroOf (s s' : Bool) : fadd nan (zeroOf s) (zeroOf s') = zeroOf (s && s') := by simp [fadd]

theorem fadd_of_finite (ha : isFinite a = true) (hb : isFinite b = true) (h : isZero a = false ∨ isZero b = false) :
    fadd nan a b = round32 (decide (unitsOf a + unitsOf b < 0)) (unitsOf a + unitsOf b).natAbs 1 false := by
  obtain ⟨hna, hia⟩ := not_nan_of_isFinite ha
  obtain ⟨hnb, hib⟩ := not_nan_of_isFinite hb
  have hz : (isZero a && isZero b) = false := Bool.and_eq_false_iff.mpr h
  simp [fadd, hna, hnb, hia, hib, hz]

theorem fadd_comm (nan a b : F32) : fadd nan a b = fadd nan b a := by
  by_cases hinf : isInf a = true ∧ isInf b = true
  · obtain ⟨ha, hb⟩ := hinf
    rw [(isInf_iff a).mp ha, (isInf_iff b).mp hb]
    cases signOf a <;> cases signOf b <;> simp [fadd]
  · have hinf' : (isInf a && isInf b) = false := by simpa using hinf
    have hinf'' : (isInf b && isInf a) = false := by rwa [Bool.and_comm]
    simp only [fadd, hinf', hinf'', Bool.false_and, Bool.or_comm (isNaN b), Bool.and_comm (isZero b),
      Bool.and_comm (signOf b), add_comm (unitsOf b)]
    cases ha : isInf a with
    | false => simp
    | true =>
      have hb : isInf b = false := by simpa [ha] using hinf'
      simp [hb]

theorem valueOf_add (a b : F32) : valueOf a + valueOf b = ((unitsOf a + unitsOf b : Int) : Rat) / 2 ^ 149 := by
  rw [valueOf, valueOf, ← add_div]
  push_cast
  rfl

theorem valueOf_add_eq_zero_iff : valueOf a + valueOf b = 0 ↔ unitsOf a + unitsOf b = 0 := by
  rw [valueOf_add, div_eq_zero_iff, or_iff_left (by positivity), Int.cast_eq_zero]

theorem fadd_of_sum_zero (ha : isFinite a = true) (hb : isFinite b = true) (h : isZero a = false ∨ isZero b = false)
    (hsum : unitsOf a + unitsOf b = 0) : fadd nan a b = zeroOf false := by
  rw [fadd_of_finite ha hb h, hsum]
  rfl

theorem roundsTo_fadd (ha : isFinite a = true) (hb : isFinite b = true) (h : isZero a = false ∨ isZero b = false)
    (hsum : valueOf a + valueOf b ≠ 0) : RoundsTo (valueOf a + valueOf b) (fadd nan a b) := by
  have hz : unitsOf a + unitsOf b ≠ 0 := mt valueOf_add_eq_zero_iff.mpr hsum
  have hround := roundsTo_round32_int 1 false one_pos hz
  rw [Nat.cast_one, div_one] at hround
  rwa [fadd_of_finite ha hb h, valueOf_add]

/-- A sum that is a finite number is that number. -/
theorem fadd_of_exact {p : F32} (ha : isFinite a = true) (hb : isFinite b = true) (hp : isFinite p = true)
    (hz : isZero p = false) (h : unitsOf a + unitsOf b = unitsOf p) : fadd nan a b = p := by
  have hne : isZero a = false ∨ isZero b = false := by
    by_contra hzero
    obtain ⟨hza, hzb⟩ : isZero a = true ∧ isZero b = true := by simpa using hzero
    rw [unitsOf_eq_zero_iff.mpr hza, unitsOf_eq_zero_iff.mpr hzb, zero_add, eq_comm, unitsOf_eq_zero_iff, hz] at h
    cases h
  rw [fadd_of_finite ha hb hne, h, natAbs_unitsOf]
  exact round32_of_exact false hp hz (by simp [unitsOf_neg_iff hz]) one_pos (mul_one _).symm

theorem fsub_of_not_nan (hb : isNaN b = false) : fsub nan a b = fadd nan a (fneg nan b) := by
  cases ha : isNaN a with
  | true => rw [fsub_of_nan _ _ _ (.inl ha), fadd_of_nan _ _ _ (.inl ha)]
  | false => simp [fsub, ha, hb]

theorem fsub_zeroOf_zeroOf (s s' : Bool) : fsub nan (zeroOf s) (zeroOf s') = zeroOf (s && !s') := by
  rw [fsub_of_not_nan (by simp), fneg_zeroOf, fadd_zeroOf_zeroOf]

/-- The difference of `a` and `b` is the finite number `p`, which is not zero. -/
abbrev ExactDifference (a b p : F32) : Prop :=
  isFinite a = true ∧ isFinite b = true ∧ isFinite p = true ∧ isZero p = false ∧ unitsOf a - unitsOf b = unitsOf p

/-- A difference that is a finite number is that number. -/
theorem fsub_of_exact {p : F32} (h : ExactDifference a b p) : fsub nan a b = p := by
  obtain ⟨ha, hb, hp, hz, h⟩ := h
  have hnb := isNaN_of_isFinite hb
  obtain ⟨-, -, -, hfin, -⟩ := fneg_class (nan := nan) hnb
  rw [fsub_of_not_nan hnb]
  exact fadd_of_exact ha (hfin.trans hb) hp hz (by rw [unitsOf_fneg hnb, ← h, sub_eq_add_neg])

theorem fsub_self (ha : isFinite a = true) : fsub nan a a = zeroOf false := by
  have hna := isNaN_of_isFinite ha
  cases hz : isZero a with
  | true => rw [(isZero_iff a).mp hz, fsub_zeroOf_zeroOf, Bool.and_not_self]
  | false =>
    obtain ⟨-, -, -, hfin, -⟩ := fneg_class (nan := nan) hna
    rw [fsub_of_not_nan hna]
    exact fadd_of_sum_zero ha (hfin.trans ha) (.inl hz) (by rw [unitsOf_fneg hna, add_neg_cancel])

theorem roundsTo_fsub (ha : isFinite a = true) (hb : isFinite b = true) (h : valueOf a ≠ valueOf b) :
    RoundsTo (valueOf a - valueOf b) (fsub nan a b) := by
  have hnb := isNaN_of_isFinite hb
  obtain ⟨-, -, hzero, hfin, -⟩ := fneg_class (nan := nan) hnb
  have hne : isZero a = false ∨ isZero (fneg nan b) = false := by
    by_contra hz
    obtain ⟨hza, hzb⟩ : isZero a = true ∧ isZero b = true := by simpa [hzero] using hz
    exact h (by rw [valueOf_eq_zero_iff.mpr hza, valueOf_eq_zero_iff.mpr hzb])
  have hround := roundsTo_fadd (nan := nan) ha (hfin.trans hb) hne
  rw [valueOf_fneg hnb, ← sub_eq_add_neg, ← fsub_of_not_nan hnb] at hround
  exact hround (sub_ne_zero.mpr h)

end

-- ======== Multiplication (R106) ========

section
variable {nan a b : F32}

theorem fmul_comm (nan a b : F32) : fmul nan a b = fmul nan b a := by
  simp only [fmul, Bool.xor_comm (signOf b), Bool.or_comm (isNaN b), Bool.and_comm (isZero b),
    Bool.and_comm (isInf b), Bool.or_comm (isInf b), Bool.or_comm (isZero b), Nat.mul_comm (magOf b)]
  rw [Bool.or_comm (isZero a && isInf b)]

theorem fmul_of_isInf_isZero (ha : isInf a = true) (hb : isZero b = true) : fmul nan a b = nan := by
  simp [fmul, ha, hb]

theorem fmul_of_isInf (ha : isInf a = true) (hnb : isNaN b = false) (hzb : isZero b = false) :
    fmul nan a b = infOf (signOf a ^^ signOf b) := by
  obtain ⟨hna, hza⟩ := not_nan_not_zero_of_isInf ha
  simp [fmul, ha, hna, hza, hnb, hzb]

theorem fmul_of_isZero (ha : isZero a = true) (hb : isFinite b = true) : fmul nan a b = zeroOf (signOf a ^^ signOf b) := by
  obtain ⟨hna, hia⟩ := not_nan_not_inf_of_isZero ha
  obtain ⟨hnb, hib⟩ := not_nan_of_isFinite hb
  simp [fmul, ha, hna, hia, hnb, hib]

theorem fmul_of_finite (ha : isFinite a = true) (hb : isFinite b = true) (hza : isZero a = false) (hzb : isZero b = false) :
    fmul nan a b = round32 (signOf a ^^ signOf b) (magOf a * magOf b) (2 ^ 149) (signOf a ^^ signOf b) := by
  obtain ⟨hna, hia⟩ := not_nan_of_isFinite ha
  obtain ⟨hnb, hib⟩ := not_nan_of_isFinite hb
  simp [fmul, hna, hia, hnb, hib, hza, hzb]

theorem roundsTo_fmul (ha : isFinite a = true) (hb : isFinite b = true) (hza : isZero a = false) (hzb : isZero b = false) :
    RoundsTo (valueOf a * valueOf b) (fmul nan a b) := by
  have hround := roundsTo_round32 (signOf a ^^ signOf b) (signOf a ^^ signOf b) (den := 2 ^ 149) (by positivity)
    (Nat.mul_pos (magOf_pos hza) (magOf_pos hzb))
  have hval : valueOf a * valueOf b =
      signFactor (signOf a ^^ signOf b) * (((magOf a * magOf b : Nat) : Rat) / (2 ^ 149 : Nat)) / 2 ^ 149 := by
    rw [valueOf_eq, valueOf_eq, signFactor_xor]
    push_cast
    ring
  rwa [fmul_of_finite ha hb hza hzb, hval]

/-- The product of `a` and `b` is the finite number `p`, and none of the three is zero. -/
abbrev ExactProduct (a b p : F32) : Prop :=
  (isFinite a = true ∧ isFinite b = true ∧ isFinite p = true) ∧ (isZero a = false ∧ isZero b = false ∧ isZero p = false) ∧
  signOf p = (signOf a ^^ signOf b) ∧ magOf a * magOf b = magOf p * 2 ^ 149

/-- A product that is a finite number is that number. -/
theorem fmul_of_exact {p : F32} (h : ExactProduct a b p) : fmul nan a b = p := by
  obtain ⟨⟨ha, hb, hp⟩, ⟨hza, hzb, hz⟩, hs, h⟩ := h
  rw [fmul_of_finite ha hb hza hzb]
  exact round32_of_exact _ hp hz hs (by positivity) h

theorem fmul_one (ha : isNaN a = false) : fmul nan a one = a := by
  have hone : isFinite one = true ∧ isNaN one = false ∧ isZero one = false ∧ signOf one = false := by decide
  have hmag : magOf one = 2 ^ 149 := by decide +kernel
  obtain ⟨hfin, hnan, hzero, hsign⟩ := hone
  rcases class_cases a with hn | ⟨hi, -⟩ | hf
  · rw [ha] at hn; cases hn
  · rw [fmul_of_isInf hi hnan hzero, hsign, Bool.xor_false, ← (isInf_iff a).mp hi]
  · cases hz : isZero a with
    | true => rw [fmul_of_isZero hz hfin, hsign, Bool.xor_false, ← (isZero_iff a).mp hz]
    | false => exact fmul_of_exact ⟨⟨hf, hfin, hf⟩, ⟨hz, hzero, hz⟩, by rw [hsign, Bool.xor_false], by rw [hmag]⟩

theorem fmul_fneg (hn : isNaN nan = true) (ha : isNaN a = false) (hb : isNaN b = false) :
    sameUpToNaN (fmul nan (fneg nan a) b) (fneg nan (fmul nan a b)) := by
  obtain ⟨hna, hinf, hzero, -, hsign, hmag⟩ := fneg_class (nan := nan) ha
  simp only [fmul, hna, ha, hb, hinf, hzero, hsign, hmag, Bool.not_xor]
  split_ifs
  · exact absurd ‹_› (by simp)
  · exact .inr ⟨hn, by rw [fneg_of_nan _ _ hn, hn]⟩
  · exact .inl (fneg_infOf _).symm
  · exact .inl (fneg_zeroOf _).symm
  · exact .inl (fneg_round32 _ _ _ (by positivity)).symm

end

-- ======== Division (R107) ========

section
variable {nan a b : F32}

theorem fdiv_of_isInf_isInf (ha : isInf a = true) (hb : isInf b = true) : fdiv nan a b = nan := by simp [fdiv, ha, hb]

theorem fdiv_of_isZero_isZero (ha : isZero a = true) (hb : isZero b = true) : fdiv nan a b = nan := by simp [fdiv, ha, hb]

theorem fdiv_of_isInf_left (ha : isInf a = true) (hb : isFinite b = true) :
    fdiv nan a b = infOf (signOf a ^^ signOf b) := by
  obtain ⟨hna, hza⟩ := not_nan_not_zero_of_isInf ha
  obtain ⟨hnb, hib⟩ := not_nan_of_isFinite hb
  simp [fdiv, ha, hna, hza, hnb, hib]

theorem fdiv_of_isInf_right (ha : isFinite a = true) (hb : isInf b = true) :
    fdiv nan a b = zeroOf (signOf a ^^ signOf b) := by
  obtain ⟨hna, hia⟩ := not_nan_of_isFinite ha
  obtain ⟨hnb, hzb⟩ := not_nan_not_zero_of_isInf hb
  simp [fdiv, hna, hia, hb, hnb, hzb]

theorem fdiv_of_isZero_right (ha : isFinite a = true) (hza : isZero a = false) (hb : isZero b = true) :
    fdiv nan a b = infOf (signOf a ^^ signOf b) := by
  obtain ⟨hna, hia⟩ := not_nan_of_isFinite ha
  obtain ⟨hnb, hib⟩ := not_nan_not_inf_of_isZero hb
  simp [fdiv, hna, hia, hza, hb, hnb, hib]

theorem fdiv_of_isZero_left (ha : isZero a = true) (hb : isFinite b = true) (hzb : isZero b = false) :
    fdiv nan a b = zeroOf (signOf a ^^ signOf b) := by
  obtain ⟨hna, hia⟩ := not_nan_not_inf_of_isZero ha
  obtain ⟨hnb, hib⟩ := not_nan_of_isFinite hb
  simp [fdiv, ha, hna, hia, hnb, hib, hzb]

theorem fdiv_of_finite (ha : isFinite a = true) (hb : isFinite b = true) (hza : isZero a = false) (hzb : isZero b = false) :
    fdiv nan a b = round32 (signOf a ^^ signOf b) (magOf a * 2 ^ 149) (magOf b) (signOf a ^^ signOf b) := by
  obtain ⟨hna, hia⟩ := not_nan_of_isFinite ha
  obtain ⟨hnb, hib⟩ := not_nan_of_isFinite hb
  simp [fdiv, hna, hia, hnb, hib, hza, hzb]

theorem roundsTo_fdiv (ha : isFinite a = true) (hb : isFinite b = true) (hza : isZero a = false) (hzb : isZero b = false) :
    RoundsTo (valueOf a / valueOf b) (fdiv nan a b) := by
  have hb0 : (0 : Rat) < magOf b := by exact_mod_cast magOf_pos hzb
  have hround := roundsTo_round32 (signOf a ^^ signOf b) (signOf a ^^ signOf b) (magOf_pos hzb)
    (Nat.mul_pos (magOf_pos hza) (show 0 < 2 ^ 149 by positivity))
  have hval : valueOf a / valueOf b =
      signFactor (signOf a ^^ signOf b) * (((magOf a * 2 ^ 149 : Nat) : Rat) / magOf b) / 2 ^ 149 := by
    have hs : signFactor (signOf b) ≠ 0 := by cases signOf b <;> simp [signFactor]
    rw [valueOf_eq, valueOf_eq, signFactor_xor, div_div_div_cancel_right₀ (by positivity), div_eq_iff (by positivity)]
    push_cast
    field_simp
    rw [sq, signFactor_mul_self, mul_one]
    norm_num
  rwa [fdiv_of_finite ha hb hza hzb, hval]

/-- The quotient of `a` by `b` is the finite number `p`, and none of the three is zero. -/
abbrev ExactQuotient (a b p : F32) : Prop :=
  (isFinite a = true ∧ isFinite b = true ∧ isFinite p = true) ∧ (isZero a = false ∧ isZero b = false ∧ isZero p = false) ∧
  signOf p = (signOf a ^^ signOf b) ∧ magOf a * 2 ^ 149 = magOf p * magOf b

/-- A quotient that is a finite number is that number. -/
theorem fdiv_of_exact {p : F32} (h : ExactQuotient a b p) : fdiv nan a b = p := by
  obtain ⟨⟨ha, hb, hp⟩, ⟨hza, hzb, hz⟩, hs, h⟩ := h
  rw [fdiv_of_finite ha hb hza hzb]
  exact round32_of_exact _ hp hz hs (magOf_pos hzb) h

end

end Sys2Proof.Machine
end

section
/-! The statements about the primitives (40_numerics.md R104 to R108), clause by clause from the lemmas about each. -/

namespace Sys2Proof.Machine

/-- Settles O44. -/
theorem faddIsTheRoundedSum : Obligations.FaddIsTheRoundedSum := by
  intro nan a b
  refine ⟨fadd_of_nan nan a b, ?_, fadd_of_isInf_left, fadd_of_isInf_right, fadd_zeroOf_zeroOf, ?_, fadd_comm nan a b⟩
  · rintro s rfl rfl
    exact fadd_of_opposite_infs s
  · intro ha hb hne
    exact ⟨fun hsum => fadd_of_sum_zero ha hb hne (valueOf_add_eq_zero_iff.mp hsum), roundsTo_fadd ha hb hne⟩

/-- Settles O45: the exact results are finite patterns, so rounding leaves them. -/
theorem additionAndMultiplicationIdentities : Obligations.AdditionAndMultiplicationIdentities := by
  intro nan x
  refine ⟨fun hx hz => ⟨?_, fun s => ?_⟩, fun hx => ⟨fmul_one hx, by rw [fmul_comm, fmul_one hx]⟩⟩
  · have hnx := isNaN_of_isFinite hx
    rw [← fsub_of_not_nan hnx, fsub_self hx]
    rfl
  · exact fadd_of_exact hx (by simp) hx hz (by simp [unitsOf])

/-- Settles O46. -/
theorem fsubIsAdditionOfTheNegation : Obligations.FsubIsAdditionOfTheNegation := by
  intro nan a b
  refine ⟨fsub_of_not_nan, fsub_of_nan nan a b, fsub_self, fsub_zeroOf_zeroOf true false, fsub_zeroOf_zeroOf false true, ?_,
    roundsTo_fsub⟩
  rw [fsub_of_not_nan (by simp), fneg_infOf, fadd_of_opposite_infs]

/-- Settles O47; each clause about one operand has its mirror image, as the product commutes. -/
theorem fmulIsTheRoundedProduct : Obligations.FmulIsTheRoundedProduct := by
  intro nan a b
  refine ⟨fmul_of_nan nan a b, ?_, ?_, ?_, roundsTo_fmul⟩
  · rintro (⟨ha, hb⟩ | ⟨ha, hb⟩)
    · exact fmul_of_isInf_isZero ha hb
    · rw [fmul_comm, fmul_of_isInf_isZero hb ha]
  · rintro (⟨ha, hnb, hzb⟩ | ⟨hna, hza, hb⟩)
    · exact fmul_of_isInf ha hnb hzb
    · rw [fmul_comm, fmul_of_isInf hb hna hza, Bool.xor_comm]
  · rintro (⟨ha, hb⟩ | ⟨ha, hb⟩)
    · exact fmul_of_isZero ha hb
    · rw [fmul_comm, fmul_of_isZero hb ha, Bool.xor_comm]

/-- Settles O48. -/
theorem fdivIsTheRoundedQuotient : Obligations.FdivIsTheRoundedQuotient := fun nan a b =>
  ⟨fdiv_of_nan nan a b, fdiv_of_isInf_isInf, fdiv_of_isZero_isZero, fdiv_of_isInf_left, fdiv_of_isInf_right,
    fdiv_of_isZero_right, fdiv_of_isZero_left, roundsTo_fdiv⟩

theorem getLsbD_fneg {nan a : F32} (h : isNaN a = false) (k : Nat) :
    (fneg nan a).getLsbD k = (a.getLsbD k ^^ (0x80000000#32).getLsbD k) := by
  rw [fneg_of_not_nan h, BitVec.getLsbD_xor]

/-- Settles O49. -/
theorem fnegInvertsTheSign : Obligations.FnegInvertsTheSign := by
  intro nan a b hn
  refine ⟨fun ha => ⟨?_, fun k hk => ?_, fneg_fneg ha⟩, fun ha => by rwa [fneg_of_nan nan a ha], fmul_fneg hn⟩
  · rw [getLsbD_fneg ha, show (0x80000000#32).getLsbD 31 = true from rfl, Bool.xor_true]
  · have hlow : ∀ k < 31, (0x80000000#32).getLsbD k = false := by decide
    rw [getLsbD_fneg ha, hlow k hk, Bool.xor_false]

end Sys2Proof.Machine
end

section
/-! The constants (40_numerics.md R116), and values of literal patterns. -/

namespace Sys2Proof.Machine

theorem valueOf_of_unitsOf {p : F32} {k : Int} (h : unitsOf p = k * 2 ^ 149) : valueOf p = k := by
  rw [valueOf, h, Int.cast_mul, mul_div_assoc, Int.cast_pow, Int.cast_ofNat, div_self (by positivity), mul_one]

theorem valueOf_twoPi : valueOf twoPi = 13176795 / 2 ^ 21 := by
  have h : unitsOf twoPi = 13176795 * 2 ^ 128 := by decide +kernel
  rw [valueOf, h]
  norm_num

/-- From 4.0 on every finite value is a whole number of units of `2^-21`. -/
theorem exists_valueOf_eq_of_four_le {p : F32} (h : 4 ≤ valueOf p) : ∃ j : Int, valueOf p = j / 2 ^ 21 := by
  have hunits : (2 : Int) ^ 23 * 2 ^ 128 ≤ unitsOf p := by
    rw [valueOf, le_div_iff₀ (by positivity)] at h
    have hcast : ((2 ^ 23 * 2 ^ 128 : Int) : Rat) ≤ unitsOf p := by push_cast; linarith
    exact Int.cast_le.mp hcast
  have hsign : signOf p = false := by
    by_contra hs
    have : unitsOf p ≤ 0 := by simp [unitsOf, Bool.eq_true_of_not_eq_false hs]
    exact absurd (hunits.trans this) (by norm_num)
  have hmag : unitsOf p = magOf p := by simp [unitsOf, hsign]
  rw [hmag] at hunits
  obtain ⟨j, hj⟩ := magOf_grid p 128 (by exact_mod_cast hunits)
  refine ⟨j, ?_⟩
  rw [valueOf, hmag, hj]
  push_cast
  ring

/-- R116: only a multiple of `2^-21` could be nearer to 2π than `TWO_PI` is, and the one below it is too far away. -/
theorem twoPi_nearest (p : F32) : |(valueOf twoPi : ℝ) - 2 * Real.pi| ≤ |(valueOf p : ℝ) - 2 * Real.pi| := by
  have hlow := Real.pi_gt_d20
  have hhigh := Real.pi_lt_d20
  have htwoPi : (valueOf twoPi : ℝ) = 13176795 / 2 ^ 21 := by rw [valueOf_twoPi]; norm_num
  rw [htwoPi, abs_of_pos (by linarith)]
  by_contra hnear
  obtain ⟨hbelow, habove⟩ := abs_lt.mp (not_le.mp hnear)
  obtain ⟨j, hj⟩ := exists_valueOf_eq_of_four_le (p := p) (by
    have : (4 : ℝ) ≤ valueOf p := by linarith
    exact_mod_cast this)
  rw [hj] at hbelow habove
  push_cast at hbelow habove
  have hj1 : (13176794 : ℝ) < j := by linarith
  have hj2 : (j : ℝ) < 13176795 := by linarith
  norm_cast at hj1 hj2
  omega

/-- Settles O51. -/
theorem constantsHaveTheirValues : Obligations.ConstantsHaveTheirValues :=
  ⟨valueOf_of_unitsOf (k := 1) (by decide +kernel), valueOf_of_unitsOf (k := 2) (by decide +kernel),
    valueOf_of_unitsOf (k := -2) (by decide +kernel), valueOf_of_unitsOf (k := 12) (by decide +kernel),
    valueOf_of_unitsOf (k := 20) (by decide +kernel), valueOf_of_unitsOf (k := 69) (by decide +kernel),
    valueOf_of_unitsOf (k := 440) (by decide +kernel), valueOf_twoPi, fun p _ => twoPi_nearest p⟩

end Sys2Proof.Machine
end

section
/-! The biquad at the edges of the number format (41_biquad.md R131 (b), R135 (a)): zero input from the zero history, and a
design with `Q = 0`. -/

namespace Sys2Proof.Machine

section
variable {nan a b : F32}

theorem fmul_zeroOf (ha : isFinite a = true) (s : Bool) : fmul nan a (zeroOf s) = zeroOf (signOf a ^^ s) := by
  rw [fmul_comm, fmul_of_isZero (by simp) ha, Bool.xor_comm]
  simp

/-- R131 (b): the five products are zeros, and the sum of zeros is `-0` only if every term is. -/
theorem biquadOutput_of_zeros (n : Nat) {c : Coefs} (hb0 : isFinite c.b0 = true) (hb1 : isFinite c.b1 = true)
    (hb2 : isFinite c.b2 = true) (ha1 : isFinite c.a1 = true) (ha2 : isFinite c.a2 = true) :
    biquadOutput n { hist := ⟨zeroOf false, zeroOf false, zeroOf false, zeroOf false⟩, coef := c } (zeroOf false) =
      zeroOf (signOf c.b0 && signOf c.b1 && signOf c.b2 && !signOf c.a1 && !signOf c.a2) := by
  simp only [biquadOutput, fmul_zeroOf hb0, fmul_zeroOf hb1, fmul_zeroOf hb2, fmul_zeroOf ha1, fmul_zeroOf ha2,
    Bool.xor_false, fadd_zeroOf_zeroOf, fsub_zeroOf_zeroOf]

theorem zeroOf_eq_ite (s : Bool) : zeroOf s = if s then 0x80000000#32 else 0x00000000#32 := by cases s <;> rfl

/-- Settles O22. -/
theorem bqZeroInputGivesAZeroOfKnownSign : Obligations.BqZeroInputGivesAZeroOfKnownSign := by
  intro s hhist hb0 hb1 hb2 ha1 ha2
  refine ⟨_, rfl, ?_⟩
  have hbq : s.bq = { hist := ⟨zeroOf false, zeroOf false, zeroOf false, zeroOf false⟩, coef := s.bq.coef } :=
    congrArg (Biquad.mk · s.bq.coef) hhist
  rw [← zeroOf_eq_ite, ← biquadOutput_of_zeros s.draws hb0 hb1 hb2 ha1 ha2, ← hbq]
  rfl

-- ======== Results in range are finite ========

theorem isFinite_of_roundsTo {r : Rat} {p : F32} (h : RoundsTo r p) (hr : |r| < 2 ^ 128 - 2 ^ 103) : isFinite p = true := by
  rw [RoundsTo, if_neg (not_le.mpr hr)] at h
  obtain ⟨hfin, -⟩ := h
  exact hfin

theorem signOf_round32 {s zs : Bool} {num den : Nat} (hd : 0 < den) (hzero : num = 0 → zs = s) :
    signOf (round32 s num den zs) = s := by
  obtain ⟨h, hround⟩ | ⟨-, -, hround⟩ | ⟨-, -, -, hsign, -⟩ := round32_cases s zs num hd
  · rw [hround, hzero h]; simp
  · rw [hround]; simp
  · exact hsign

theorem isFinite_fadd (ha : isFinite a = true) (hb : isFinite b = true) (h : |valueOf a + valueOf b| < 2 ^ 128 - 2 ^ 103) :
    isFinite (fadd nan a b) = true := by
  by_cases hz : isZero a = false ∨ isZero b = false
  · by_cases hsum : valueOf a + valueOf b = 0
    · rw [fadd_of_sum_zero ha hb hz (valueOf_add_eq_zero_iff.mp hsum)]; simp
    · exact isFinite_of_roundsTo (roundsTo_fadd ha hb hz hsum) h
  · obtain ⟨hza, hzb⟩ : isZero a = true ∧ isZero b = true := by simpa using hz
    rw [(isZero_iff a).mp hza, (isZero_iff b).mp hzb, fadd_zeroOf_zeroOf]; simp

theorem isFinite_fsub (ha : isFinite a = true) (hb : isFinite b = true) (h : |valueOf a - valueOf b| < 2 ^ 128 - 2 ^ 103) :
    isFinite (fsub nan a b) = true := by
  have hnb := isNaN_of_isFinite hb
  obtain ⟨-, -, -, hfin, -⟩ := fneg_class (nan := nan) hnb
  rw [fsub_of_not_nan hnb]
  exact isFinite_fadd ha (hfin.trans hb) (by rwa [valueOf_fneg hnb, ← sub_eq_add_neg])

theorem isFinite_fmul (ha : isFinite a = true) (hb : isFinite b = true) (h : |valueOf a * valueOf b| < 2 ^ 128 - 2 ^ 103) :
    isFinite (fmul nan a b) = true := by
  cases hza : isZero a with
  | true => rw [fmul_of_isZero hza hb]; simp
  | false =>
    cases hzb : isZero b with
    | true => rw [fmul_comm, fmul_of_isZero hzb ha]; simp
    | false => exact isFinite_of_roundsTo (roundsTo_fmul ha hb hza hzb) h

/-- A quotient by a number that is not zero: finite if in range, with the sign of R107. -/
theorem fdiv_class_of_finite (ha : isFinite a = true) (hb : isFinite b = true) (hzb : isZero b = false)
    (h : |valueOf a / valueOf b| < 2 ^ 128 - 2 ^ 103) :
    isFinite (fdiv nan a b) = true ∧ signOf (fdiv nan a b) = (signOf a ^^ signOf b) := by
  cases hza : isZero a with
  | true => rw [fdiv_of_isZero_left hza hb hzb]; simp
  | false =>
    refine ⟨isFinite_of_roundsTo (roundsTo_fdiv ha hb hza hzb) h, ?_⟩
    rw [fdiv_of_finite ha hb hza hzb]
    exact signOf_round32 (magOf_pos hzb) fun _ => rfl

theorem abs_valueOf (p : F32) : |valueOf p| = (magOf p : Rat) / 2 ^ 149 := by
  rw [valueOf_eq, abs_div, abs_mul, abs_signFactor, one_mul, Nat.abs_cast, abs_of_pos (by positivity)]

theorem abs_valueOf_lt (ha : isFinite a = true) : |valueOf a| < 2 ^ 128 := by
  rw [abs_valueOf, div_lt_iff₀ (by positivity)]
  exact_mod_cast magOf_lt ha

/-- An answer that is not a NaN does not depend on the draw. -/
theorem UsesDrawOnlyAsAnswer.eq_of_not_nan {op : F32 → F32 → F32 → F32} (hop : UsesDrawOnlyAsAnswer op)
    (hn : isNaN nan = true) (h : isNaN (op nan a b) = false) (nan' : F32) : op nan a b = op nan' a b := by
  rcases hop a b with hdraw | ⟨-, -, hsame⟩
  · rw [hdraw, hn] at h; cases h
  · exact hsame nan nan'

-- ======== `Q = 0` ========

theorem fdiv_infOf (ha : isFinite a = true) (s : Bool) : fdiv nan a (infOf s) = zeroOf (signOf a ^^ s) := by
  rw [fdiv_of_isInf_right ha (by simp)]; simp

theorem fadd_infOf (ha : isFinite a = true) (s : Bool) : fadd nan a (infOf s) = infOf s :=
  fadd_of_isInf_right (by simp) ha

theorem fsub_infOf (ha : isFinite a = true) (s : Bool) : fsub nan a (infOf s) = infOf !s := by
  rw [fsub_of_not_nan (by simp), fneg_infOf, fadd_infOf ha]

end

/-- R134, R135 (a): a positive finite sine divided by the zero `2 * Q` makes `alpha`, and with it `a0`, the infinity of `Q`'s
sign; every finite number divided by it is a zero. -/
theorem normalizedCoefs_of_zero_q (n : Nat) {sw cw : F32} (sq : Bool) (hsw : isFinite sw = true) (hswz : isZero sw = false)
    (hsws : signOf sw = false) (ht : isFinite (fsub (nanDraw (n + 2)) one cw) = true)
    (hb0u : isFinite (fdiv (nanDraw (n + 3)) (fsub (nanDraw (n + 2)) one cw) two) = true)
    (ha1u : isFinite (fmul (nanDraw (n + 5)) minusTwo cw) = true) :
    normalizedCoefs n sw cw (zeroOf sq) =
      { b0 := zeroOf (signOf (fdiv (nanDraw (n + 3)) (fsub (nanDraw (n + 2)) one cw) two) ^^ sq)
        b1 := zeroOf (signOf (fsub (nanDraw (n + 2)) one cw) ^^ sq)
        b2 := zeroOf (signOf (fdiv (nanDraw (n + 3)) (fsub (nanDraw (n + 2)) one cw) two) ^^ sq)
        a1 := zeroOf (signOf (fmul (nanDraw (n + 5)) minusTwo cw) ^^ sq)
        a2 := nanDraw (n + 11) } := by
  have hone : isFinite one = true := by decide
  have htwoQ : fmul (nanDraw n) two (zeroOf sq) = zeroOf sq := by
    rw [fmul_zeroOf (by decide), show signOf two = false by decide, Bool.false_xor]
  have halpha : fdiv (nanDraw (n + 1)) sw (zeroOf sq) = infOf sq := by
    rw [fdiv_of_isZero_right hsw hswz (by simp), hsws, Bool.false_xor]; simp
  have ha2 : fdiv (nanDraw (n + 11)) (infOf !sq) (infOf sq) = nanDraw (n + 11) := fdiv_of_isInf_isInf (by simp) (by simp)
  simp only [normalizedCoefs, htwoQ, halpha, fadd_infOf hone, fsub_infOf hone, fdiv_infOf ht, fdiv_infOf hb0u,
    fdiv_infOf ha1u, ha2]

/-- Settles O28: `t`, `b0u` and `a1u` are finite, being at most 2 in magnitude. -/
theorem zeroQDesignStoresZerosAndANaN : Obligations.ZeroQDesignStoresZerosAndANaN := by
  intro n sw cw q hq hsw hswz hsws hcw hmag
  obtain ⟨hone, htwo, hminusTwo, -⟩ := constantsHaveTheirValues
  have hcw1 : |valueOf cw| ≤ 1 := by
    rw [← abs_one, ← hone, abs_valueOf, abs_valueOf]
    gcongr
  obtain ⟨hlow, hhigh⟩ := abs_le.mp hcw1
  have ht : isFinite (fsub (nanDraw (n + 2)) one cw) = true := by
    refine isFinite_fsub (by decide) hcw ?_
    rw [hone, abs_lt]
    constructor <;> linarith
  have ha1u : isFinite (fmul (nanDraw (n + 5)) minusTwo cw) = true := by
    refine isFinite_fmul (by decide) hcw ?_
    rw [hminusTwo, abs_lt]
    constructor <;> linarith
  have hhalf : |valueOf (fsub (nanDraw (n + 2)) one cw) / valueOf two| < 2 ^ 128 - 2 ^ 103 := by
    obtain ⟨h1, h2⟩ := abs_lt.mp (abs_valueOf_lt ht)
    rw [htwo, abs_lt]
    constructor <;> linarith
  obtain ⟨hb0u, hsign⟩ := fdiv_class_of_finite (nan := nanDraw (n + 3)) ht (by decide) (by decide) hhalf
  have ht0 := usesDrawOnlyAsAnswer_fsub.eq_of_not_nan (isNaN_nanDraw _) (isNaN_of_isFinite ht) 0
  have ha1u0 := usesDrawOnlyAsAnswer_fmul.eq_of_not_nan (isNaN_nanDraw _) (isNaN_of_isFinite ha1u) 0
  rw [show signOf two = false by decide, Bool.xor_false] at hsign
  have hcoefs := normalizedCoefs_of_zero_q n (signOf q) hsw hswz hsws ht hb0u ha1u
  rw [← (isZero_iff q).mp hq, hsign, ht0, ha1u0] at hcoefs
  simp [hcoefs]

end Sys2Proof.Machine
end

section
/-! The auxiliary math commands (42_aux_math.md R151, R152) for a given `EXP2` or `EXP10`: each operation of AUX.N2F is
monotone, and the worked values under the named properties of R117. -/

namespace Sys2Proof.Machine

-- ======== Rounding is monotone ========

/-- The magnitude of a rounded fraction: from the overflow bound on, that of an infinity. -/
theorem magOf_round32 (s zs : Bool) (num : Nat) {den : Nat} (hd : 0 < den) :
    magOf (round32 s num den zs) = min (roundUnits num den) (2 ^ 128 * 2 ^ 149) := by
  obtain ⟨rfl, hround⟩ | ⟨-, hover, hround⟩ | ⟨-, hlt, -, -, hmag⟩ := round32_cases s zs num hd
  · rw [hround, magOf_zeroOf, roundUnits_eq_of_exact (p := zeroOf zs) hd (by simp), magOf_zeroOf, Nat.zero_min]
  · rw [hround, magOf_infOf, Nat.min_eq_right hover]
  · rw [hmag, Nat.min_eq_left hlt.le]

theorem isNaN_round32 (s zs : Bool) (num : Nat) {den : Nat} (hd : 0 < den) : isNaN (round32 s num den zs) = false := by
  obtain ⟨-, hround⟩ | ⟨-, -, hround⟩ | ⟨-, -, hfin, -⟩ := round32_cases s zs num hd
  · rw [hround]; simp
  · rw [hround]; simp
  · exact isNaN_of_isFinite hfin

/-- `num / den` rounded, for a numerator with a sign. -/
def roundSigned (zs : Bool) (den : Nat) (z : Int) : F32 := round32 (decide (z < 0)) z.natAbs den zs

theorem unitsOf_roundSigned (zs : Bool) {den : Nat} (hd : 0 < den) (z : Int) :
    unitsOf (roundSigned zs den z) =
      if z < 0 then -((min (roundUnits z.natAbs den) (2 ^ 128 * 2 ^ 149) : Nat) : Int)
      else ((min (roundUnits z.natAbs den) (2 ^ 128 * 2 ^ 149) : Nat) : Int) := by
  rw [← magOf_round32 (decide (z < 0)) zs z.natAbs hd]
  rcases eq_or_ne z 0 with rfl | hz
  · simp [roundSigned, round32, unitsOf]
  · have hsign : signOf (round32 (decide (z < 0)) z.natAbs den zs) = decide (z < 0) :=
      signOf_round32 hd fun h => absurd (Int.natAbs_eq_zero.mp h) hz
    simp only [unitsOf, roundSigned, hsign, decide_eq_true_eq]

/-- A larger real is not rounded to a smaller number. -/
theorem valueLe_roundSigned (zs zs' : Bool) {den : Nat} (hd : 0 < den) {z z' : Int} (h : z ≤ z') :
    valueLe (roundSigned zs den z) (roundSigned zs' den z') := by
  have mono : ∀ {m m' : Nat}, m ≤ m' → ((min (roundUnits m den) (2 ^ 128 * 2 ^ 149) : Nat) : Int) ≤
      (min (roundUnits m' den) (2 ^ 128 * 2 ^ 149) : Nat) :=
    fun hm => Int.ofNat_le.mpr (min_le_min_right _ (roundUnits_mono den hd hm))
  refine ⟨isNaN_round32 _ _ _ hd, isNaN_round32 _ _ _ hd, ?_⟩
  rw [unitsOf_roundSigned _ hd, unitsOf_roundSigned _ hd]
  split_ifs with hz hz' hz'
  · exact neg_le_neg (mono (by omega))
  · exact (neg_nonpos.mpr (Int.natCast_nonneg _)).trans (Int.natCast_nonneg _)
  · omega
  · exact mono (by omega)

-- ======== Infinities as the largest values ========

section
variable {p x y : F32}

theorem unitsOf_infOf (s : Bool) :
    unitsOf (infOf s) = if s then -(2 ^ 128 * 2 ^ 149) else 2 ^ 128 * 2 ^ 149 := by cases s <;> decide +kernel

theorem isFinite_or_eq_infOf (h : isNaN p = false) : isFinite p = true ∨ ∃ s, p = infOf s := by
  rcases class_cases p with hn | ⟨hi, -⟩ | hf
  · rw [h] at hn; cases hn
  · exact .inr ⟨_, (isInf_iff p).mp hi⟩
  · exact .inl hf

theorem abs_unitsOf_lt (h : isFinite p = true) : |unitsOf p| < 2 ^ 128 * 2 ^ 149 := by
  rw [Int.abs_eq_natAbs, natAbs_unitsOf]
  exact_mod_cast magOf_lt h

theorem abs_unitsOf_le (h : isNaN p = false) : |unitsOf p| ≤ 2 ^ 128 * 2 ^ 149 := by
  obtain hf | ⟨s, rfl⟩ := isFinite_or_eq_infOf h
  · exact (abs_unitsOf_lt hf).le
  · rw [Int.abs_eq_natAbs, natAbs_unitsOf, magOf_infOf]
    norm_num

theorem valueLe_infOf_false (h : isNaN p = false) : valueLe p (infOf false) :=
  ⟨h, by simp, by rw [unitsOf_infOf]; exact (abs_le.mp (abs_unitsOf_le h)).2⟩

theorem infOf_true_valueLe (h : isNaN p = false) : valueLe (infOf true) p :=
  ⟨by simp, h, by rw [unitsOf_infOf]; exact (abs_le.mp (abs_unitsOf_le h)).1⟩

/-- A function that keeps the infinities and is monotone on finite numbers, whatever the free NaN, is monotone. -/
theorem valueLe_of_finite {f g : F32 → F32} (hf : ∀ s, f (infOf s) = infOf s) (hg : ∀ s, g (infOf s) = infOf s)
    (hfin : ∀ {x y}, isFinite x = true → isFinite y = true → unitsOf x ≤ unitsOf y → valueLe (f x) (g y))
    (h : valueLe x y) : valueLe (f x) (g y) := by
  obtain ⟨hx, hy, hle⟩ := h
  obtain hfx | ⟨s, rfl⟩ := isFinite_or_eq_infOf hx
  · have hnfx : isNaN (f x) = false := (hfin hfx hfx le_rfl).1
    obtain hfy | ⟨s, rfl⟩ := isFinite_or_eq_infOf hy
    · exact hfin hfx hfy hle
    · rw [hg]
      cases s with
      | false => exact valueLe_infOf_false hnfx
      | true =>
        have := (abs_lt.mp (abs_unitsOf_lt hfx)).1
        rw [unitsOf_infOf] at hle
        exact absurd hle (not_le.mpr this)
  · rw [hf]
    obtain hfy | ⟨s', rfl⟩ := isFinite_or_eq_infOf hy
    · cases s with
      | true => exact infOf_true_valueLe (hfin hfy hfy le_rfl).2.1
      | false =>
        have := (abs_lt.mp (abs_unitsOf_lt hfy)).2
        rw [unitsOf_infOf] at hle
        exact absurd hle (not_le.mpr this)
    · rw [hg]
      exact ⟨hx, hy, hle⟩

end

-- ======== The operations of AUX.N2F ========

section
variable {nan nan' c x y : F32}

theorem fsub_infOf_left (hc : isFinite c = true) (s : Bool) : fsub nan (infOf s) c = infOf s := by
  have hnc := isNaN_of_isFinite hc
  obtain ⟨hn, -, -, hfin, -⟩ := fneg_class (nan := nan) hnc
  rw [fsub_of_not_nan hnc]
  refine fadd_of_isInf_left (by simp) hn fun h => ?_
  rw [hc, h] at hfin
  simp at hfin

theorem fsub_valueLe_fsub (hc : isFinite c = true) (hz : isZero c = false) (h : valueLe x y) :
    valueLe (fsub nan x c) (fsub nan' y c) := by
  have heq : ∀ {nan p}, isFinite p = true → fsub nan p c = roundSigned false 1 (unitsOf p - unitsOf c) := fun {nan p} hp => by
    have hnc := isNaN_of_isFinite hc
    obtain ⟨-, -, hzero, hfin, -⟩ := fneg_class (nan := nan) hnc
    rw [fsub_of_not_nan hnc, fadd_of_finite hp (hfin.trans hc) (.inr (hzero.trans hz)), unitsOf_fneg hnc, ← sub_eq_add_neg]
    rfl
  refine valueLe_of_finite (f := (fsub nan · c)) (g := (fsub nan' · c)) (fsub_infOf_left hc)
    (fsub_infOf_left hc) (fun hx hy hle => ?_) h
  rw [heq hx, heq hy]
  exact valueLe_roundSigned _ _ one_pos (sub_le_sub_right hle _)

-- a positive constant
variable (hc : isFinite c = true) (hz : isZero c = false) (hs : signOf c = false)
include hc hz hs

theorem fmul_eq_roundSigned (hx : isFinite x = true) :
    fmul nan c x = roundSigned (signOf x) (2 ^ 149) (magOf c * unitsOf x) := by
  cases hzx : isZero x with
  | true =>
    rw [fmul_comm, fmul_of_isZero hzx hc, unitsOf_eq_zero_iff.mpr hzx, hs, Bool.xor_false, mul_zero]
    rfl
  | false =>
    have hneg : decide ((magOf c : Int) * unitsOf x < 0) = signOf x := by
      have hmag : (0 : Int) < magOf c := by exact_mod_cast magOf_pos hz
      have hiff : (magOf c : Int) * unitsOf x < 0 ↔ unitsOf x < 0 := smul_neg_iff_of_pos_left hmag
      simp only [hiff, unitsOf_neg_iff hzx, Bool.decide_eq_true]
    rw [fmul_of_finite hc hx hz hzx, roundSigned, hneg, Int.natAbs_mul, natAbs_unitsOf, hs, Bool.false_xor]
    rfl

theorem fmul_valueLe_fmul (h : valueLe x y) : valueLe (fmul nan c x) (fmul nan' c y) := by
  have hinf : ∀ nan s, fmul nan c (infOf s) = infOf s := fun nan s => by
    rw [fmul_comm, fmul_of_isInf (by simp) (isNaN_of_isFinite hc) hz, hs, Bool.xor_false]
    simp
  refine valueLe_of_finite (f := fmul nan c) (g := fmul nan' c) (hinf nan) (hinf nan') (fun hx hy hle => ?_) h
  rw [fmul_eq_roundSigned hc hz hs hx, fmul_eq_roundSigned hc hz hs hy]
  exact valueLe_roundSigned _ _ (by positivity) (mul_le_mul_of_nonneg_left hle (Int.natCast_nonneg _))

theorem fdiv_eq_roundSigned (hx : isFinite x = true) :
    fdiv nan x c = roundSigned (signOf x) (magOf c) (unitsOf x * 2 ^ 149) := by
  cases hzx : isZero x with
  | true =>
    rw [fdiv_of_isZero_left hzx hc hz, unitsOf_eq_zero_iff.mpr hzx, hs, Bool.xor_false, zero_mul]
    rfl
  | false =>
    have hneg : decide (unitsOf x * 2 ^ 149 < 0) = signOf x := by
      have hiff : unitsOf x * 2 ^ 149 < 0 ↔ unitsOf x < 0 := by omega
      simp only [hiff, unitsOf_neg_iff hzx, Bool.decide_eq_true]
    rw [fdiv_of_finite hx hc hzx hz, roundSigned, hneg, Int.natAbs_mul, natAbs_unitsOf, hs, Bool.xor_false]
    rfl

theorem fdiv_valueLe_fdiv (h : valueLe x y) : valueLe (fdiv nan x c) (fdiv nan' y c) := by
  have hinf : ∀ nan s, fdiv nan (infOf s) c = infOf s := fun nan s => by
    rw [fdiv_of_isInf_left (by simp) hc, hs, Bool.xor_false]
    simp
  refine valueLe_of_finite (f := (fdiv nan · c)) (g := (fdiv nan' · c)) (hinf nan) (hinf nan') (fun hx hy hle => ?_) h
  rw [fdiv_eq_roundSigned hc hz hs hx, fdiv_eq_roundSigned hc hz hs hy]
  exact valueLe_roundSigned _ _ (magOf_pos hz) (mul_le_mul_of_nonneg_right hle (by positivity))

end

theorem applyConfig_of_not_nan {f : F32 → F32} {nan a : F32} (h : isNaN (f a) = false) : applyConfig f nan a = f a := by
  simp [applyConfig, h]

/-- Settles O33: each of the four operations is monotone. -/
theorem noteToFrequencyIsMonotone : Obligations.NoteToFrequencyIsMonotone := by
  intro exp2 hmono n n' x y h
  have hd := fsub_valueLe_fsub (nan := nanDraw n) (nan' := nanDraw n') (c := sixtyNine) (by decide) (by decide) h
  have he := fdiv_valueLe_fdiv (nan := nanDraw (n + 1)) (nan' := nanDraw (n' + 1)) (c := twelve) (by decide) (by decide)
    (by decide) hd
  have hp := hmono _ _ he
  have ⟨hnx, hny, _⟩ := hp
  rw [noteToFrequency, noteToFrequency, applyConfig_of_not_nan hnx, applyConfig_of_not_nan hny]
  exact fmul_valueLe_fmul (by decide) (by decide) (by decide) hp

-- ======== The worked values ========

/-- AUX.N2F from its exact or rounded intermediate results. -/
theorem noteToFrequency_eq {exp2 : F32 → F32} {n : Nat} {note d e p f : F32} (hd : ∀ nan, fsub nan note sixtyNine = d)
    (he : ∀ nan, fdiv nan d twelve = e) (hp : exp2 e = p) (hnp : isNaN p = false) (hf : ∀ nan, fmul nan fourForty p = f) :
    noteToFrequency exp2 n note = f := by
  subst hp
  rw [noteToFrequency, hd, he, applyConfig_of_not_nan hnp, hf]

/-- AUX.DB2LIN from its quotient. -/
theorem decibelsToLinear_eq {exp10 : F32 → F32} {n : Nat} {db e p : F32} (he : ∀ nan, fdiv nan db twenty = e)
    (hp : exp10 e = p) (hnp : isNaN p = false) : decibelsToLinear exp10 n db = p := by
  subst hp
  rw [decibelsToLinear, he, applyConfig_of_not_nan hnp]

/-- Settles O32: 69 - 69 and 0 / 12 are `+0`, and a product by 1.0 is exact. -/
theorem referenceNoteAndZeroDecibels : Obligations.ReferenceNoteAndZeroDecibels := by
  constructor
  · rintro exp2 n ⟨hzero, -⟩
    exact noteToFrequency_eq (fun _ => fsub_self (by decide))
      (fun _ => fdiv_of_isZero_left (by decide) (by decide) (by decide)) hzero (by decide) (fun _ => fmul_one (by decide))
  · intro exp10 n s ⟨hpos, hneg⟩
    refine decibelsToLinear_eq (e := zeroOf s) (p := one) (fun _ => ?_) ?_ (by decide)
    · rw [fdiv_of_isZero_left (by simp) (by decide) (by decide), show signOf twenty = false by decide, Bool.xor_false]
      simp
    · cases s
      · exact hpos
      · exact hneg

end Sys2Proof.Machine
end

section
/-! The values that R151 and R152 work out, under `P_EXP_FAITHFUL` (40_numerics.md R117; log entry 17). -/

namespace Sys2Proof.Machine

/-- The largest finite magnitude, `2^128 - 2^104`, in units of `2^-149`. -/
theorem magOf_le_of_finite {p : F32} (h : isFinite p = true) : magOf p ≤ (2 ^ 128 - 2 ^ 104) * 2 ^ 149 := by
  have hexp := expOf_lt p
  have hfrac := fracOf_lt p
  have hne : expOf p ≠ 255 := by simpa [isFinite] using h
  unfold magOf
  split
  · exact hfrac.le.trans (by norm_num)
  · calc (2 ^ 23 + fracOf p) * 2 ^ (expOf p - 1) ≤ (2 ^ 24 - 1) * 2 ^ 253 :=
          Nat.mul_le_mul (by omega) (Nat.pow_le_pow_right (by norm_num) (by omega))
      _ = (2 ^ 128 - 2 ^ 104) * 2 ^ 149 := by norm_num

theorem valueOf_le_of_finite {p : F32} (h : isFinite p = true) : (valueOf p : ℝ) ≤ 2 ^ 128 - 2 ^ 104 := by
  cases hs : signOf p with
  | true => exact (valueOf_nonpos hs).trans (by norm_num)
  | false =>
    rw [valueOf_positive hs, div_le_iff₀ (by positivity)]
    have hcast : (magOf p : ℝ) ≤ (((2 ^ 128 - 2 ^ 104) * 2 ^ 149 : Nat) : ℝ) := Nat.cast_le.mpr (magOf_le_of_finite h)
    push_cast at hcast
    linarith

theorem valueOf_maxFinite : (valueOf 0x7F7FFFFF#32 : ℝ) = 2 ^ 128 - 2 ^ 104 := by
  have hmag : magOf 0x7F7FFFFF#32 = (2 ^ 128 - 2 ^ 104) * 2 ^ 149 := by decide +kernel
  rw [valueOf_positive (by decide), hmag]
  norm_num

/-- The only pattern adjacent to a value of the format is that value's own. -/
theorem eq_of_adjacentTo {p q : F32} (hp : signOf p = false) (hq : signOf q = false) (hfq : isFinite q = true)
    (h : AdjacentTo (valueOf q : ℝ) p) : p = q := by
  obtain ⟨-, h⟩ := h
  obtain ⟨hbelow, habove⟩ := h q hfq
  have hle : (valueOf q : ℝ) ≤ valueOf p := not_lt.mp fun hlt => hbelow ⟨hlt, le_rfl⟩
  have hge : (valueOf p : ℝ) ≤ valueOf q := not_lt.mp fun hlt => habove ⟨le_rfl, hlt⟩
  have heq := le_antisymm hge hle
  rw [valueOf_positive hp, valueOf_positive hq, div_left_inj' (by positivity), Nat.cast_inj] at heq
  exact magOf_injective (hp.trans hq.symm) heq

/-- A faithful result is exact where the format has the number: it is below the overflow bound, and not above the largest
finite number. -/
theorem eq_of_adjacentToPositive {r : ℝ} {p q : F32} (hq : signOf q = false) (hfq : isFinite q = true)
    (hr : (valueOf q : ℝ) = r) (h : AdjacentToPositive r p) : p = q := by
  subst hr
  obtain ⟨hp, -, -, h⟩ := h
  have hle := valueOf_le_of_finite hfq
  obtain hadj | ⟨-, hmax⟩ := h (hle.trans_lt (by norm_num))
  · exact eq_of_adjacentTo hp hq hfq hadj
  · rw [valueOf_maxFinite] at hmax
    exact absurd hle (not_le.mpr hmax)

section
variable {r : ℝ} {e p q : F32} {k : Nat}

/-- `EXP2` and `EXP10` of a whole number whose power the format has. -/
theorem exp_eq_of_faithful {m : Int} (hk : unitsOf e = k * 2 ^ 149) (hq : signOf q = false ∧ isFinite q = true)
    (hm : unitsOf q = m * 2 ^ 149) (hpow : r ^ k = m) (h : AdjacentToPositive (r ^ (valueOf e : ℝ)) p) : p = q := by
  obtain ⟨hsign, hfin⟩ := hq
  refine eq_of_adjacentToPositive hsign hfin ?_ h
  rw [valueOf_of_unitsOf hk, valueOf_of_unitsOf hm]
  push_cast
  rw [Real.rpow_natCast, hpow]

/-- A power from the overflow bound on. -/
theorem exp_eq_infOf_of_faithful (hk : unitsOf e = k * 2 ^ 149) (hr : (2 : ℝ) ^ 128 ≤ r ^ k)
    (h : AdjacentToPositive (r ^ (valueOf e : ℝ)) p) : p = infOf false := by
  obtain ⟨-, hover, -⟩ := h
  refine hover (le_trans (by norm_num) (hr.trans_eq ?_))
  rw [valueOf_of_unitsOf hk]
  push_cast
  rw [Real.rpow_natCast]

/-- A power below half the smallest subnormal. -/
theorem exp_eq_zeroOf_of_faithful (hpos : 0 ≤ r) (hk : unitsOf e = -k * 2 ^ 149) (hr : (r ^ k)⁻¹ ≤ 1 / 2 ^ 150)
    (h : AdjacentToPositive (r ^ (valueOf e : ℝ)) p) : p = zeroOf false := by
  obtain ⟨-, -, hunder, -⟩ := h
  refine hunder (le_trans (le_of_eq ?_) hr)
  rw [valueOf_of_unitsOf hk]
  push_cast
  rw [Real.rpow_neg hpos, Real.rpow_natCast]

end

/-- 440 times `2^120` is beyond the overflow bound (R151 (e)). -/
theorem fmul_fourForty_two_pow_120 (nan : F32) : fmul nan fourForty 0x7B800000#32 = infOf false := by
  have hround := roundsTo_fmul (nan := nan) (a := fourForty) (b := 0x7B800000#32) (by decide) (by decide) (by decide)
    (by decide)
  have ha : valueOf fourForty = (440 : Int) := valueOf_of_unitsOf (by decide +kernel)
  have hb : valueOf 0x7B800000#32 = (2 ^ 120 : Int) := valueOf_of_unitsOf (by decide +kernel)
  rw [ha, hb, RoundsTo, if_pos (by norm_num)] at hround
  rw [hround]
  norm_num

/-- Settles O57: the differences and quotients are exact, and so are the powers, or they are out of range. -/
theorem faithfulExponentialsGiveTheWorkedValues : Obligations.FaithfulExponentialsGiveTheWorkedValues := by
  intro exp2 exp10 h n
  have hexp2 : ∀ e, isFinite e = true → AdjacentToPositive ((2 : ℝ) ^ (valueOf e : ℝ)) (exp2 e) := fun e he => (h e he).1
  have hexp10 : ∀ e, isFinite e = true → AdjacentToPositive ((10 : ℝ) ^ (valueOf e : ℝ)) (exp10 e) := fun e he => (h e he).2
  refine ⟨?_, ?_, ?_, ?_, ?_, ?_⟩
  · -- (81 - 69) / 12 = 1, and 440 * 2 = 880
    refine noteToFrequency_eq (d := twelve) (e := one) (p := two) (fun _ => fsub_of_exact (by decide +kernel))
      (fun _ => fdiv_of_exact (by decide +kernel)) ?_ (by decide) (fun _ => fmul_of_exact (by decide +kernel))
    exact exp_eq_of_faithful (k := 1) (m := 2) (by decide +kernel) (by decide) (by decide +kernel) (by norm_num)
      (hexp2 _ (by decide))
  · -- 20 / 20 = 1
    refine decibelsToLinear_eq (e := one) (fun _ => fdiv_of_exact (by decide +kernel)) ?_ (by decide)
    exact exp_eq_of_faithful (k := 1) (m := 10) (by decide +kernel) (by decide) (by decide +kernel) (by norm_num)
      (hexp10 _ (by decide))
  · -- (1509 - 69) / 12 = 120
    refine noteToFrequency_eq (d := 0x44B40000#32) (e := 0x42F00000#32) (p := 0x7B800000#32)
      (fun _ => fsub_of_exact (by decide +kernel)) (fun _ => fdiv_of_exact (by decide +kernel)) ?_ (by decide)
      fmul_fourForty_two_pow_120
    exact exp_eq_of_faithful (k := 120) (m := 2 ^ 120) (by decide +kernel) (by decide) (by decide +kernel) (by norm_num)
      (hexp2 _ (by decide))
  · -- (-1851 - 69) / 12 = -160
    refine noteToFrequency_eq (d := 0xC4F00000#32) (e := 0xC3200000#32) (p := zeroOf false)
      (fun _ => fsub_of_exact (by decide +kernel)) (fun _ => fdiv_of_exact (by decide +kernel)) ?_ (by decide)
      (fun _ => fmul_zeroOf (by decide) false)
    exact exp_eq_zeroOf_of_faithful (k := 160) (by norm_num) (by decide +kernel) (by norm_num) (hexp2 _ (by decide))
  · -- 780 / 20 = 39
    refine decibelsToLinear_eq (e := 0x421C0000#32) (p := infOf false) (fun _ => fdiv_of_exact (by decide +kernel)) ?_
      (by decide)
    exact exp_eq_infOf_of_faithful (k := 39) (by decide +kernel) (by norm_num) (hexp10 _ (by decide))
  · -- -920 / 20 = -46
    refine decibelsToLinear_eq (e := 0xC2380000#32) (p := zeroOf false) (fun _ => fdiv_of_exact (by decide +kernel)) ?_
      (by decide)
    exact exp_eq_zeroOf_of_faithful (k := 46) (by norm_num) (by decide +kernel) (by norm_num) (hexp10 _ (by decide))

end Sys2Proof.Machine
end

section
/-! What BQ.PROC and BQ.DSGN do to the whole state (41_biquad.md R131, R134, R136), and what follows: the sample depends on
the biquad's registers alone (R133), `b0` and `b2` are designed alike, and `Q = 0` poisons the filter (R135 (a)). -/

namespace Sys2Proof.Machine

/-- R131: only the history changes, beside the response and the draw index. -/
theorem exec_bqProc (x0 : F32) (s : State) :
    exec (.bqProc x0) s = .next { s with
      bq := { coef := s.bq.coef, hist := s.bq.hist.shift x0 (biquadOutput s.draws s.bq x0) }
      rsp := some (respond .ok (biquadOutput s.draws s.bq x0) 0 0)
      draws := s.draws + 9 } := rfl

/-- R134, R136: only the coefficients change, beside the response and the draw index. -/
theorem exec_bqDsgn (f0 q sampleRate : F32) (s : State) :
    exec (.bqDsgn f0 q sampleRate) s = .next { s with
      bq := { hist := s.bq.hist, coef := designLowpass Config.sin Config.cos s.draws f0 q sampleRate }
      rsp := some (respond .ok 0 0 0)
      draws := s.draws + 16 } := rfl

/-- Settles O24: from equal registers the two samples are equal up to a created NaN's pattern, and the rest of the history is
moved. -/
theorem bqProcDependsOnBiquadAlone : Obligations.BqProcDependsOnBiquadAlone := by
  intro s s' x0 hbq
  have hhist : sameHistory s.bq.hist s'.bq.hist := hbq ▸ sameHistory_refl _
  have hcoef : sameCoefs s.bq.coef s'.bq.coef := hbq ▸ sameCoefs_refl _
  have hy0 := biquadOutput_sameUpToNaN hhist hcoef s.draws s'.draws x0
  have hshift := historyAfter_sameHistory ⟨hhist, hcoef⟩ s.draws s'.draws (.bqProc x0)
  refine ⟨_, _, exec_bqProc x0 s, exec_bqProc x0 s', by simp only [hbq], hshift, fun hnan => ?_⟩
  have heq : biquadOutput s.draws s.bq x0 = biquadOutput s'.draws s'.bq x0 := eq_of_sameUpToNaN hy0 hnan
  exact ⟨by simp only [heq, congrArg Biquad.hist hbq], by simp only [heq]⟩

/-- Settles O26: `b0` and `b2` are two divisions of the same operands, which differ in their draws alone. -/
theorem designedB0EqualsB2 : Obligations.DesignedB0EqualsB2 := fun s f0 q sampleRate =>
  ⟨_, exec_bqDsgn f0 q sampleRate s, fdiv_sameUpToNaN (sameUpToNaN_refl _) (sameUpToNaN_refl _)⟩

-- ======== `Q = 0` for every sine ========

theorem isNaN_or_isInf_fdiv_of_isZero {nan a b : F32} (hn : isNaN nan = true) (hb : isZero b = true) :
    isNaN (fdiv nan a b) = true ∨ isInf (fdiv nan a b) = true := by
  obtain ha | ⟨ha, -⟩ | ha := class_cases a
  · rw [fdiv_of_nan _ _ _ (.inl ha)]; exact .inl hn
  · rw [fdiv_of_isInf_left ha (isFinite_of_isZero hb)]; simp
  · cases hza : isZero a with
    | true => rw [fdiv_of_isZero_isZero hza hb]; exact .inl hn
    | false => rw [fdiv_of_isZero_right ha hza hb]; simp

/-- R134's quotient `(1 - alpha) / (1 + alpha)` for an infinite `alpha` divides two infinities. -/
theorem isNaN_fdiv_fsub_fadd_of_isInf {a alpha : F32} {i j k : Nat} (ha : isFinite a = true) (h : isInf alpha = true) :
    isNaN (fdiv (nanDraw k) (fsub (nanDraw j) a alpha) (fadd (nanDraw i) a alpha)) = true := by
  rw [(isInf_iff alpha).mp h, fsub_infOf ha, fadd_infOf ha, fdiv_of_isInf_isInf (by simp) (by simp), isNaN_nanDraw]

/-- R135 (a) whatever `SIN` gives: `alpha`, a division by the zero `2 * Q`, is a NaN or an infinity. -/
theorem isNaN_normalizedCoefs_a2_of_isZero_q {q : F32} (hq : isZero q = true) (n : Nat) (sw cw : F32) :
    isNaN (normalizedCoefs n sw cw q).a2 = true := by
  have htwoQ : isZero (fmul (nanDraw n) two q) = true := by
    rw [(isZero_iff q).mp hq, fmul_zeroOf (by decide)]; simp
  obtain halpha | halpha := isNaN_or_isInf_fdiv_of_isZero (a := sw) (isNaN_nanDraw (n + 1)) htwoQ
  · exact isNaN_fdiv_of_nan (.inl (isNaN_fsub_of_nan (.inr halpha)))
  · exact isNaN_fdiv_fsub_fadd_of_isInf (by decide) halpha

/-- Settles O27: the design's `a2` is a NaN, and a NaN `a2` makes the last term of the sample a NaN. -/
theorem zeroQPoisonsTheFilter : Obligations.ZeroQPoisonsTheFilter := by
  constructor
  · intro s f0 q sampleRate hq
    exact ⟨_, exec_bqDsgn f0 q sampleRate s, isNaN_normalizedCoefs_a2_of_isZero_q hq _ _ _, rfl⟩
  · intro s x0 ha2
    exact ⟨_, _, exec_bqProc x0 s, rfl, isNaN_biquadOutput s.draws (.inr (.inr (.inr (.inr (.inl ha2)))))⟩

/-- Settles O21: the word decodes to the command, and the command's sample is the sum written out. -/
theorem bqProcComputesOneSample : Obligations.BqProcComputesOneSample := fun s x0 =>
  ⟨decode_encode (i := .bqProc x0) rfl, exec_bqProc x0 s⟩

/-- Settles O25: the word decodes to the command, and the command's coefficients are the design written out. -/
theorem bqDsgnStoresTheNormalizedDesign : Obligations.BqDsgnStoresTheNormalizedDesign := fun s f0 q sampleRate =>
  ⟨decode_encode (i := .bqDsgn f0 q sampleRate) rfl, exec_bqDsgn f0 q sampleRate s⟩

end Sys2Proof.Machine
end

section
/-! What AUX.N2F and AUX.DB2LIN do to the machine (42_aux_math.md R150 to R152): they answer, and they use draws. -/

namespace Sys2Proof.Machine

/-- R150, R151: no register changes, beside the response and the draw index. -/
theorem exec_auxN2f (note : F32) (s : State) :
    exec (.auxN2f note) s = .next { s with
      rsp := some (respond .ok (noteToFrequency Config.exp2 s.draws note) 0 0)
      draws := s.draws + 4 } := rfl

/-- R150, R152: no register changes, beside the response and the draw index. -/
theorem exec_auxDb2lin (db : F32) (s : State) :
    exec (.auxDb2lin db) s = .next { s with
      rsp := some (respond .ok (decibelsToLinear Config.exp10 s.draws db) 0 0)
      draws := s.draws + 2 } := rfl

/-- Settles O30: the word decodes to the command, and the command's answer is the frequency written out. -/
theorem auxN2fAnswersTheFrequency : Obligations.AuxN2fAnswersTheFrequency := fun s note =>
  ⟨decode_encode (i := .auxN2f note) rfl, exec_auxN2f note s⟩

/-- Settles O31: the word decodes to the command, and the command's answer is the gain written out. -/
theorem auxDb2linAnswersTheGain : Obligations.AuxDb2linAnswersTheGain := fun s db =>
  ⟨decode_encode (i := .auxDb2lin db) rfl, exec_auxDb2lin db s⟩

end Sys2Proof.Machine
end

section
/-! What UD.PEEK and UD.RDADV do to the machine (43_unit_delay.md R162, R163), and what a sequence of UD.RDADV answers
(R163 (d)). -/

namespace Sys2Proof.Machine

/-- R162: no register changes, beside the response. -/
theorem exec_udPeek (s : State) : exec .udPeek s = .next { s with rsp := some (respond .ok s.ud0.v 0 0) } := rfl

/-- R163: only the cell changes, beside the response, which carries the value from before the store. -/
theorem exec_udRdadv (newValue : F32) (s : State) :
    exec (.udRdadv newValue) s = .next { s with
      ud0 := { v := newValue }
      rsp := some (respond .ok s.ud0.v 0 0) } := rfl

/-- The word of UD.RDADV, as the host offers it, runs the command. -/
theorem runWord_encode_udRdadv (newValue : F32) (s : State) :
    runWord (encode (.udRdadv newValue)) s = .next { s with
      ud0 := { v := newValue }
      rsp := some (respond .ok s.ud0.v 0 0) } :=
  (runWord_legal (decode_encode rfl) s).trans (exec_udRdadv newValue s)

/-- Settles O36, by induction on the operands: the first word answers the content before it, and the words after it run on
from the cell that holds its operand. -/
theorem unitDelayDelaysByOneCommand : Obligations.UnitDelayDelaysByOneCommand := by
  intro s vs
  induction vs generalizing s with
  | nil => exact ⟨s, rfl, rfl⟩
  | cons v vs ih =>
    have hfirst := runWord_encode_udRdadv v s
    obtain ⟨t, hrest, hlast⟩ := ih { s with ud0 := { v := v }, rsp := some (respond .ok s.ud0.v 0 0) }
    exact ⟨t, runWords_cons_of_runWord hfirst rfl hrest, hlast⟩

/-- Settles O34: the word decodes to the command, and the command answers the cell. -/
theorem udPeekAnswersTheStoredValue : Obligations.UdPeekAnswersTheStoredValue := fun s =>
  ⟨decode_encode (i := .udPeek) rfl, exec_udPeek s⟩

/-- Settles O35: the word decodes to the command, and the command's one store is of its operand. -/
theorem udRdadvReadsThenStores : Obligations.UdRdadvReadsThenStores := fun s newValue =>
  ⟨decode_encode (i := .udRdadv newValue) rfl, exec_udRdadv newValue s⟩

end Sys2Proof.Machine
end

section
/-! What SVF.STEP and the accessors do to the machine (44_svf.md R171, R176 to R178), and the fixed point of the recurrence at
zero (R179). -/

namespace Sys2Proof.Machine

/-- R171: only the SVF registers change, beside the response and the draw index. -/
theorem exec_svfStep (input wct q : F32) (s : State) :
    exec (.svfStep input wct q) s = .next { s with
      svf := svfNext s.draws s.svf input wct q
      rsp := some (respond .ok (svfNext s.draws s.svf input wct q).low s.svf.z2 (svfNext s.draws s.svf input wct q).high)
      draws := s.draws + 8 } := rfl

/-- R176: no register changes, beside the response. -/
theorem exec_svfLow (s : State) : exec .svfLow s = .next { s with rsp := some (respond .ok s.svf.low 0 0) } := rfl

/-- R177: no register changes, beside the response. -/
theorem exec_svfMid (s : State) : exec .svfMid s = .next { s with rsp := some (respond .ok s.svf.mid 0 0) } := rfl

/-- R178: no register changes, beside the response. -/
theorem exec_svfHigh (s : State) : exec .svfHigh s = .next { s with rsp := some (respond .ok s.svf.high 0 0) } := rfl

/-- R179: for finite `wct` and `q` the three products are zeros, and each sum has a term `+0`, which makes it `+0` whatever
the sign of the other; so the signs of `wct` and `q` do not matter. -/
theorem svfNext_of_zeros (n : Nat) {f : Svf} (hz1 : f.z1 = zeroOf false) (hz2 : f.z2 = zeroOf false) {wct q : F32}
    (hwct : isFinite wct = true) (hq : isFinite q = true) :
    svfNext n f (zeroOf false) wct q = ⟨zeroOf false, zeroOf false, zeroOf false, zeroOf false, zeroOf false⟩ := by
  simp only [svfNext, peek, writeCell, readAndAdvance, hz1, hz2, fmul_zeroOf hwct, fmul_zeroOf hq, fneg_zeroOf,
    fadd_zeroOf_zeroOf, fsub_zeroOf_zeroOf, Bool.and_false, Bool.false_and]

/-- R179, one step as the host offers it: from registers all `+0`, a word of SVF.STEP with `in = +0` answers three zeros and
leaves the registers as they were. -/
theorem runWord_encode_svfStep_of_zeros {s : State} (hs : s.svf = ⟨0, 0, 0, 0, 0⟩) {wct q : F32}
    (hwct : isFinite wct = true) (hq : isFinite q = true) :
    ∃ t, runWord (encode (.svfStep 0x00000000 wct q)) s = .next t ∧ t.rsp = some (respond .ok 0 0 0) ∧
      t.svf = ⟨0, 0, 0, 0, 0⟩ := by
  have hnext : svfNext s.draws s.svf 0x00000000 wct q = ⟨0, 0, 0, 0, 0⟩ :=
    svfNext_of_zeros s.draws (congrArg Svf.z1 hs) (congrArg Svf.z2 hs) hwct hq
  refine ⟨_, (runWord_legal (decode_encode rfl) s).trans (exec_svfStep 0x00000000 wct q s), ?_, hnext⟩
  simp only [hnext, congrArg Svf.z2 hs]

/-- Settles O40, by induction on the operands: the first word keeps the registers at zero, and the words after it run on from
there. -/
theorem svfZeroInputIsAFixedPoint : Obligations.SvfZeroInputIsAFixedPoint := by
  intro ops s hops hs
  induction ops generalizing s with
  | nil => exact ⟨s, rfl, hs⟩
  | cons o ops ih =>
    obtain ⟨⟨hwct, -⟩, hq, -⟩ := hops o (.head ops)
    obtain ⟨t, hfirst, hrsp, ht⟩ := runWord_encode_svfStep_of_zeros hs hwct hq
    obtain ⟨u, hrest, hu⟩ := ih t (fun p hp => hops p (.tail o hp)) ht
    exact ⟨u, runWords_cons_of_runWord hfirst hrsp hrest, hu⟩

/-- Settles O37: the word decodes to the command, and the command's recurrence is the one written out. -/
theorem svfStepAdvancesTheFilter : Obligations.SvfStepAdvancesTheFilter := fun s input wct q =>
  ⟨decode_encode (i := .svfStep input wct q) rfl, exec_svfStep input wct q s⟩

/-- Settles O38: each word decodes to its accessor, and the accessor answers its register. -/
theorem svfAccessorsAnswerTheLastOutputs : Obligations.SvfAccessorsAnswerTheLastOutputs := fun s =>
  ⟨⟨decode_encode (i := .svfLow) rfl, exec_svfLow s⟩, ⟨decode_encode (i := .svfMid) rfl, exec_svfMid s⟩,
    ⟨decode_encode (i := .svfHigh) rfl, exec_svfHigh s⟩⟩

end Sys2Proof.Machine
end

section
/-! What RDREG does to the machine (45_debug_read.md R190): an index that R20 numbers is answered with its register, any other
is an illegal command. -/

namespace Sys2Proof.Machine

/-- R190: no register changes, beside the response. -/
theorem exec_rdreg_of_ofNumber {index : BitVec 32} {r : RegName} (h : RegName.ofNumber index.toNat = some r) (s : State) :
    exec (.rdreg index) s = .next { s with rsp := some (respond .ok (s.read r) 0 0) } := by
  obtain ⟨r', hr', hx⟩ | ⟨hnone, -⟩ := execRdreg_cases index s
  · cases h.symm.trans hr'
    exact hx
  · cases h.symm.trans hnone

/-- R190, R75: an index that names no register is answered as an illegal word is. -/
theorem exec_rdreg_of_gt {index : BitVec 32} (h : 14 < index.toNat) (s : State) :
    exec (.rdreg index) s = .next { s with rsp := some (respond .errIllegal 0 0 0) } := by
  obtain ⟨r, hr, -⟩ | ⟨-, hx⟩ := execRdreg_cases index s
  · cases hr.symm.trans (ofNumber_eq_none.mpr h)
  · exact hx

theorem exists_ofNumber_of_le {k : Nat} (h : k ≤ 14) : ∃ r, RegName.ofNumber k = some r :=
  Option.ne_none_iff_exists'.mp fun hnone => absurd (ofNumber_eq_none.mp hnone) (by omega)

/-- A register's number fits the index operand. -/
theorem toNat_ofNat_number (r : RegName) : (BitVec.ofNat 32 r.number).toNat = r.number := by cases r <;> rfl

/-- R74 (d): the one check that the word of RDREG fails is the one on its index. -/
theorem not_legalWord_encode_rdreg {index : BitVec 32} (h : 14 < index.toNat) : ¬LegalWord (encode (.rdreg index)) := by
  rintro ⟨-, -, -, -, hindex⟩
  simp only [encode, packCmd_op, packCmd_a] at hindex
  have hle : index.toNat ≤ 14 := hindex rfl
  omega

/-- Settles O42: a register's number names it, an index up to 14 names a register and makes a legal word, and an index above
14 fails R74 (d) and names nothing. -/
theorem rdregAnswersTheNumberedRegister : Obligations.RdregAnswersTheNumberedRegister := by
  refine ⟨fun s r => ?_, fun s index hle => ?_, fun s index hgt => ?_⟩
  · have hr : RegName.ofNumber (BitVec.ofNat 32 r.number).toNat = some r := by rw [toNat_ofNat_number, ofNumber_number]
    exact exec_rdreg_of_ofNumber hr s
  · obtain ⟨r, hr⟩ := exists_ofNumber_of_le hle
    have hwf : (Instr.rdreg index).wf = true := decide_eq_true hle
    exact ⟨r, hr, number_of_ofNumber hr, decode_encode (i := .rdreg index) hwf, exec_rdreg_of_ofNumber hr s⟩
  · exact ⟨decode_illegal_of_not_legalWord (not_legalWord_encode_rdreg hgt), exec_rdreg_of_gt hgt s⟩

end Sys2Proof.Machine
end

section
/-! The statements of the reset family (70_reset_and_hazards.md section 1): a reset in the command stream and a reset at the
pins give the reset state. -/

namespace Sys2Proof.Machine

/-- Both reset events, without and with a command in flight, apply the reset. -/
theorem step_of_reset_or_resetInFlight {s : State} {w : CmdWord} {rest : List HostEvent} {e : HostEvent}
    (he : e = .reset ∨ e = .resetInFlight w) (h : s.inputs = e :: rest) : step s = .next (s.applyReset rest) := by
  obtain rfl | rfl := he
  · exact step_of_reset h
  · exact step_of_resetInFlight h

/-- Settles O12: both events apply the reset, whose registers are read off the reset state. -/
theorem resetEventGivesTheResetState : Obligations.ResetEventGivesTheResetState := by
  intro s w rest e he hin
  exact ⟨s.applyReset rest, step_of_reset_or_resetInFlight he hin, applyReset_rsp .., applyReset_inputs ..,
    applyReset_draws .., afterReset_readIndex_zero s.draws rest, afterReset_readIndex_coef s.draws rest⟩

/-- R230: while `rst` is high, `cmd_ready` and `rsp_valid` are 0, also with a response in flight. -/
@[simp] theorem pins_of_rst_high (p : PortState) : p.pins true = { cmdReady := false, rsp := none } := by
  simp [PortState.pins]

/-- R230: a block with nothing in flight is ready for a command once `rst` is low. -/
@[simp] theorem idle_pins_of_rst_low (n : Nat) (s : State) :
    (PortState.idle n s).pins false = { cmdReady := true, rsp := none } := by
  simp [PortState.pins, PortState.idle]

section
variable {i : PinsIn} (hr : i.rst = true) (p : PortState)
include hr

theorem acceptedAt_of_rst : p.acceptedAt i = [] := by
  simp [PortState.acceptedAt, hr]

theorem deliveredAt_of_rst : p.deliveredAt i = [] := by
  simp [PortState.deliveredAt, hr]

/-- R230, R232: an edge with `rst` high resets the registers and drops what was in flight or offered. -/
theorem portEdge_of_rst : portEdge p i = .next (.idle p.count (p.core.applyReset p.core.inputs)) := by
  simp [portEdge, hr]

end

/-- Settles O55: with `rst` high both handshakes are closed, and the edge leaves an idle block in the reset state. -/
theorem resetAtThePinsAbandonsTheCommand : Obligations.ResetAtThePinsAbandonsTheCommand := by
  intro p i hr
  exact ⟨pins_of_rst_high p, acceptedAt_of_rst hr p, deliveredAt_of_rst hr p, portEdge_of_rst hr p,
    idle_pins_of_rst_low ..⟩

end Sys2Proof.Machine
end

section
/-! A word placed for the next step (10_state.md section 3, 20_memory.md section 2; log entries 4 and 10): `withFetchWord` puts
a whole command at the head of the host's stream, and the step that takes it off runs it on the state as it was. -/

namespace Sys2Proof.Machine

/-- The table's numbering of a whole command is the numbering of the command word itself: no bit is cut off or moved. -/
@[simp] theorem tableWord_toNat (w : CmdWord) : tableWord 128 w.toNat = w := by
  rw [tableWord, Nat.mod_eq_of_lt w.isLt, BitVec.ofNat_toNat, BitVec.setWidth_eq]

@[simp] theorem withFetchWord_toNat_inputs (s : State) (w : CmdWord) :
    (s.withFetchWord 128 w.toNat).inputs = .command w :: s.inputs := by
  simp [State.withFetchWord, State.offerWord]

/-- Taking the placed word off the stream again leaves the state as it was. -/
@[simp] theorem withFetchWord_withInputs (s : State) (nbits w : Nat) :
    (s.withFetchWord nbits w).withInputs s.inputs = s := rfl

/-- Every placed word, legal or not, is what the very next step runs. -/
theorem step_withFetchWord (s : State) (w : CmdWord) : step (s.withFetchWord 128 w.toNat) = runWord w s := by
  rw [step_of_command (withFetchWord_toNat_inputs s w), withFetchWord_withInputs]

/-- Settles O7: the next step runs the placed word, and the encoding of a well-formed command decodes to that command. -/
theorem offeredWordIsRunNext : Obligations.OfferedWordIsRunNext := by
  intro s i hwf
  calc step (s.withFetchWord 128 (encode i).toNat) = runWord (encode i) s := step_withFetchWord s (encode i)
    _ = exec i s := runWord_legal (decode_encode hwf) s

end Sys2Proof.Machine
end
